-- ==== Sys2Proof/Word.lean ====
section
/-! DEFINITION. The machine's words and indices (spec 00_scope.md R1, R2; 30_encoding.md R61). -/

namespace Sys2Proof

/-- An 8-bit unsigned value: a register of V, a timer, a cell of MEM (10_state.md R10, R22, R24). -/
abbrev Byte := BitVec 8

/-- A 12-bit unsigned value: I, PC, a return address, `nnn` (10_state.md R13, R14, R17).
Arithmetic on it is reduced mod 4096, as 10_state.md R13 and R15 ask. -/
abbrev Addr := BitVec 12

/-- A 16-bit opcode (30_encoding.md R60). -/
abbrev Opcode := BitVec 16

/-- The number of a general register, 0 to 15 (10_state.md R10). -/
abbrev Reg := Fin 16

/-- The index of a key, 0 to 15 (10_state.md R26). -/
abbrev Key := Fin 16

/-- VF, the register that is also the flag output (10_state.md R11). -/
abbrev vf : Reg := 15

end Sys2Proof
end

