-- ==== Sys2Proof/Machine/Flags.lean ====
section
/-! DEFINITION. Every flag computation: what a flag-writing instruction leaves in VF (10_state.md R32). -/

namespace Sys2Proof.Machine

/-- A condition as the flag value 1 or 0. -/
def flagByte (c : Bool) : Byte := if c then 1#8 else 0#8

/-- ADD_REG: 1 if the unreduced sum is above 255 (41_register_alu.md R107). -/
def carryFlag (a b : Byte) : Byte := flagByte (255 < a.toNat + b.toNat)

/-- SUB and SUBN: 1 if `a >= b`, that is, no borrow (41_register_alu.md R108, R110). -/
def notBorrowFlag (a b : Byte) : Byte := flagByte (b.toNat ≤ a.toNat)

/-- SHR: bit 0 (41_register_alu.md R109). -/
def lowBitFlag (a : Byte) : Byte := a &&& 1#8

/-- SHL: bit 7 (41_register_alu.md R111). -/
def highBitFlag (a : Byte) : Byte := a >>> 7

/-- OR, AND, XOR: always 0 (41_register_alu.md R104 to R106). -/
def logicFlag : Byte := 0#8

end Sys2Proof.Machine
end

