-- ==== Sys2Proof/Config.lean ====
section
/-! DEFINITION. What the implementation fixes (spec 00_scope.md R1, R2 and section 4) and the one free value (41_register_alu.md R114). -/

namespace Sys2Proof.Config

/-- MEM_SIZE (00_scope.md R1). -/
def memSize : Nat := 4096

/-- ROM_BASE, the address a program is loaded at and started from (00_scope.md R2). -/
def romBase : Addr := 0x200#12

/-- ROM_MAX, the length of the longest program (00_scope.md R2). -/
def romMax : Nat := 3584

/-- STACK_DEPTH (00_scope.md section 4, the spec's decision D3; log 14). -/
def stackDepth : Nat := 16

/-- FONT, the parameter of 00_scope.md section 4: 80 bytes, 16 glyphs of 5 (R2). The machine takes it as an argument
(the spec's decision D5, OPEN; log 1). -/
abbrev Font := Vector Byte 80

/-- FONT, glyphs 0 to 3 (93_implementation_defined.md U14). -/
def fontGlyphs0 : List Byte :=
  [0xF0, 0x90, 0x90, 0x90, 0xF0, 0x20, 0x60, 0x20, 0x20, 0x70,
   0xF0, 0x10, 0xF0, 0x80, 0xF0, 0xF0, 0x10, 0xF0, 0x10, 0xF0]

/-- FONT, glyphs 4 to 7 (93_implementation_defined.md U14). -/
def fontGlyphs4 : List Byte :=
  [0x90, 0x90, 0xF0, 0x10, 0x10, 0xF0, 0x80, 0xF0, 0x10, 0xF0,
   0xF0, 0x80, 0xF0, 0x90, 0xF0, 0xF0, 0x10, 0x20, 0x40, 0x40]

/-- FONT, glyphs 8 to B (93_implementation_defined.md U14). -/
def fontGlyphs8 : List Byte :=
  [0xF0, 0x90, 0xF0, 0x90, 0xF0, 0xF0, 0x90, 0xF0, 0x10, 0xF0,
   0xF0, 0x90, 0xF0, 0x90, 0x90, 0xE0, 0x90, 0xE0, 0x90, 0xE0]

/-- FONT, glyphs C to F (93_implementation_defined.md U14). -/
def fontGlyphsC : List Byte :=
  [0xF0, 0x80, 0x80, 0x80, 0xF0, 0xE0, 0x90, 0x90, 0x90, 0xE0,
   0xF0, 0x80, 0xF0, 0x80, 0xF0, 0xF0, 0x80, 0xF0, 0x80, 0x80]

/-- The default of FONT that the spec names (93_implementation_defined.md U14, which takes it from general
knowledge). PRESUMED, unsafe for a claim about glyph pixels (log 1). -/
def font : Font := ⟨(fontGlyphs0 ++ fontGlyphs4 ++ fontGlyphs8 ++ fontGlyphsC).toArray, rfl⟩

/-- The byte drawn by the `k`-th RND of a run: `rand8()` of 41_register_alu.md R114, any value 0 to 255.
It has no body, so nothing can be proved about which byte it is (log 3). -/
opaque drawByte : Nat → Byte

end Sys2Proof.Config
end

