-- ==== Sys2Proof/Syntax.lean ====
section
/-! DEFINITION. The instruction set as syntax: one constructor for each row of spec/opcode_table.json, in the table's order (30_encoding.md R64). -/

namespace Sys2Proof

/-- An instruction. `x` and `y` select registers, `kk` is an 8-bit immediate, `nnn` a 12-bit address,
`n` a sprite height (30_encoding.md R61). Every field is typed by its exact range, so every term is an
instruction some opcode stands for. -/
inductive Instr where
  | cls                                  -- 00E0
  | ret                                  -- 00EE
  | jp (nnn : Addr)                      -- 1nnn
  | call (nnn : Addr)                    -- 2nnn
  | seImm (x : Reg) (kk : Byte)          -- 3xkk
  | sneImm (x : Reg) (kk : Byte)         -- 4xkk
  | seReg (x y : Reg)                    -- 5xy0
  | ldImm (x : Reg) (kk : Byte)          -- 6xkk
  | addImm (x : Reg) (kk : Byte)         -- 7xkk
  | ldReg (x y : Reg)                    -- 8xy0
  | or (x y : Reg)                       -- 8xy1
  | and (x y : Reg)                      -- 8xy2
  | xor (x y : Reg)                      -- 8xy3
  | addReg (x y : Reg)                   -- 8xy4
  | sub (x y : Reg)                      -- 8xy5
  | shr (x y : Reg)                      -- 8xy6, y ignored (30_encoding.md R66)
  | subn (x y : Reg)                     -- 8xy7
  | shl (x y : Reg)                      -- 8xyE, y ignored (30_encoding.md R66)
  | sneReg (x y : Reg)                   -- 9xy0
  | ldIndex (nnn : Addr)                 -- Annn
  | jpV0 (nnn : Addr)                    -- Bnnn
  | rnd (x : Reg) (kk : Byte)            -- Cxkk
  | drw (x y : Reg) (n : Fin 16)         -- Dxyn
  | skp (x : Reg)                        -- Ex9E
  | sknp (x : Reg)                       -- ExA1
  | ldVxDt (x : Reg)                     -- Fx07
  | ldVxKey (x : Reg)                    -- Fx0A
  | ldDtVx (x : Reg)                     -- Fx15
  | ldStVx (x : Reg)                     -- Fx18
  | addIndex (x : Reg)                   -- Fx1E
  | ldFont (x : Reg)                     -- Fx29
  | ldBcd (x : Reg)                      -- Fx33
  | stRegs (x : Reg)                     -- Fx55
  | ldRegs (x : Reg)                     -- Fx65
  deriving DecidableEq, Repr

/-- The spec's id of the row an instruction belongs to (30_encoding.md R64, column `id`). -/
def Instr.id : Instr → String
  | .cls => "CLS"
  | .ret => "RET"
  | .jp _ => "JP"
  | .call _ => "CALL"
  | .seImm _ _ => "SE_IMM"
  | .sneImm _ _ => "SNE_IMM"
  | .seReg _ _ => "SE_REG"
  | .ldImm _ _ => "LD_IMM"
  | .addImm _ _ => "ADD_IMM"
  | .ldReg _ _ => "LD_REG"
  | .or _ _ => "OR"
  | .and _ _ => "AND"
  | .xor _ _ => "XOR"
  | .addReg _ _ => "ADD_REG"
  | .sub _ _ => "SUB"
  | .shr _ _ => "SHR"
  | .subn _ _ => "SUBN"
  | .shl _ _ => "SHL"
  | .sneReg _ _ => "SNE_REG"
  | .ldIndex _ => "LD_INDEX"
  | .jpV0 _ => "JP_V0"
  | .rnd _ _ => "RND"
  | .drw _ _ _ => "DRW"
  | .skp _ => "SKP"
  | .sknp _ => "SKNP"
  | .ldVxDt _ => "LD_VX_DT"
  | .ldVxKey _ => "LD_VX_KEY"
  | .ldDtVx _ => "LD_DT_VX"
  | .ldStVx _ => "LD_ST_VX"
  | .addIndex _ => "ADD_INDEX"
  | .ldFont _ => "LD_FONT"
  | .ldBcd _ => "LD_BCD"
  | .stRegs _ => "ST_REGS"
  | .ldRegs _ => "LD_REGS"

end Sys2Proof
end

