-- ==== Sys2Proof/WellFormed.lean ====
section
/-! DEFINITION. What the spec calls legal: opcodes (30_encoding.md R64, R65), and the length of a program image (00_scope.md R2). -/

namespace Sys2Proof

/-- One row of the opcode map: its id, its match and its mask (30_encoding.md R64). -/
structure OpcodeRow where
  id : String
  pattern : Opcode
  mask : Opcode
  deriving DecidableEq, Repr

/-- An opcode belongs to a row exactly when `op & mask = match` (30_encoding.md R63). -/
def OpcodeRow.matches (r : OpcodeRow) (op : Opcode) : Bool := op &&& r.mask == r.pattern

/-- Rows of families 0 to 7. -/
def opcodeRowsLow : List OpcodeRow :=
  [⟨"CLS", 0x00E0, 0xFFFF⟩, ⟨"RET", 0x00EE, 0xFFFF⟩, ⟨"JP", 0x1000, 0xF000⟩, ⟨"CALL", 0x2000, 0xF000⟩,
   ⟨"SE_IMM", 0x3000, 0xF000⟩, ⟨"SNE_IMM", 0x4000, 0xF000⟩, ⟨"SE_REG", 0x5000, 0xF00F⟩,
   ⟨"LD_IMM", 0x6000, 0xF000⟩, ⟨"ADD_IMM", 0x7000, 0xF000⟩]

/-- Rows of family 8. -/
def opcodeRowsAlu : List OpcodeRow :=
  [⟨"LD_REG", 0x8000, 0xF00F⟩, ⟨"OR", 0x8001, 0xF00F⟩, ⟨"AND", 0x8002, 0xF00F⟩, ⟨"XOR", 0x8003, 0xF00F⟩,
   ⟨"ADD_REG", 0x8004, 0xF00F⟩, ⟨"SUB", 0x8005, 0xF00F⟩, ⟨"SHR", 0x8006, 0xF00F⟩,
   ⟨"SUBN", 0x8007, 0xF00F⟩, ⟨"SHL", 0x800E, 0xF00F⟩]

/-- Rows of families 9 to E. -/
def opcodeRowsHigh : List OpcodeRow :=
  [⟨"SNE_REG", 0x9000, 0xF00F⟩, ⟨"LD_INDEX", 0xA000, 0xF000⟩, ⟨"JP_V0", 0xB000, 0xF000⟩,
   ⟨"RND", 0xC000, 0xF000⟩, ⟨"DRW", 0xD000, 0xF000⟩, ⟨"SKP", 0xE09E, 0xF0FF⟩, ⟨"SKNP", 0xE0A1, 0xF0FF⟩]

/-- Rows of family F. -/
def opcodeRowsF : List OpcodeRow :=
  [⟨"LD_VX_DT", 0xF007, 0xF0FF⟩, ⟨"LD_VX_KEY", 0xF00A, 0xF0FF⟩, ⟨"LD_DT_VX", 0xF015, 0xF0FF⟩,
   ⟨"LD_ST_VX", 0xF018, 0xF0FF⟩, ⟨"ADD_INDEX", 0xF01E, 0xF0FF⟩, ⟨"LD_FONT", 0xF029, 0xF0FF⟩,
   ⟨"LD_BCD", 0xF033, 0xF0FF⟩, ⟨"ST_REGS", 0xF055, 0xF0FF⟩, ⟨"LD_REGS", 0xF065, 0xF0FF⟩]

/-- The opcode map of 30_encoding.md R64, all 34 rows in its order. -/
def opcodeMap : List OpcodeRow := opcodeRowsLow ++ opcodeRowsAlu ++ opcodeRowsHigh ++ opcodeRowsF

/-- Legality read off the table of ILLEGAL opcodes by family (30_encoding.md R65), independently of
`opcodeMap` and of the decoder. -/
def legalOpcode (op : Opcode) : Bool :=
  match op.toNat / 4096 with
  | 0 => op.toNat == 0x00E0 || op.toNat == 0x00EE
  | 5 => op.toNat % 16 == 0
  | 8 => op.toNat % 16 ≤ 7 || op.toNat % 16 == 14
  | 9 => op.toNat % 16 == 0
  | 14 => [0x9E, 0xA1].contains (op.toNat % 256)
  | 15 => [0x07, 0x0A, 0x15, 0x18, 0x1E, 0x29, 0x33, 0x55, 0x65].contains (op.toNat % 256)
  | _ => true

/-- A program image the loader accepts: at most ROM_MAX bytes (70_reset_and_hazards.md R211, R212). -/
def romFits (bytes : List Byte) : Bool := bytes.length ≤ Config.romMax

end Sys2Proof
end

