-- ==== Sys2Proof/Decode.lean ====
section
/-! DEFINITION. Decoding, total on any bytes (30_encoding.md R60 to R66), and the encoder written from the same formats (R62). -/

namespace Sys2Proof

/-- Why bytes are no instruction. -/
inductive DecodeError where
  /-- The opcode matches no row of 30_encoding.md R64. -/
  | invalidOpcode (op : Opcode)
  /-- Fewer than the two bytes of an opcode were given (30_encoding.md R60); a fetch always gives two. -/
  | truncated
  deriving DecidableEq, Repr

/-- `op[15:12]`, the family (30_encoding.md R61). -/
def family (op : Opcode) : Fin 16 := (op.extractLsb' 12 4).toFin

/-- `x = op[11:8]` (30_encoding.md R61). -/
def fieldX (op : Opcode) : Reg := (op.extractLsb' 8 4).toFin

/-- `y = op[7:4]` (30_encoding.md R61). -/
def fieldY (op : Opcode) : Reg := (op.extractLsb' 4 4).toFin

/-- `n = op[3:0]` (30_encoding.md R61). -/
def fieldN (op : Opcode) : Fin 16 := (op.extractLsb' 0 4).toFin

/-- `kk = op[7:0]` (30_encoding.md R61). -/
def fieldKk (op : Opcode) : Byte := op.extractLsb' 0 8

/-- `nnn = op[11:0]` (30_encoding.md R61). -/
def fieldNnn (op : Opcode) : Addr := op.extractLsb' 0 12

/-- Family 0, format FIX: only 00E0 and 00EE are instructions (30_encoding.md R64, R65). -/
def decodeFix (op : Opcode) : Except DecodeError Instr :=
  if op = 0x00E0#16 then .ok .cls
  else if op = 0x00EE#16 then .ok .ret
  else .error (.invalidOpcode op)

/-- Family 8, format XYF: the function code is the low nibble (30_encoding.md R64, R65). -/
def decodeAlu (op : Opcode) : Except DecodeError Instr :=
  match fieldN op with
  | 0 => .ok (.ldReg (fieldX op) (fieldY op))
  | 1 => .ok (.or (fieldX op) (fieldY op))
  | 2 => .ok (.and (fieldX op) (fieldY op))
  | 3 => .ok (.xor (fieldX op) (fieldY op))
  | 4 => .ok (.addReg (fieldX op) (fieldY op))
  | 5 => .ok (.sub (fieldX op) (fieldY op))
  | 6 => .ok (.shr (fieldX op) (fieldY op))
  | 7 => .ok (.subn (fieldX op) (fieldY op))
  | 14 => .ok (.shl (fieldX op) (fieldY op))
  | _ => .error (.invalidOpcode op)

/-- Families 5 and 9, format XYF: the low nibble is a fixed 0 (30_encoding.md R64). -/
def decodeXy0 (mk : Reg → Reg → Instr) (op : Opcode) : Except DecodeError Instr :=
  if fieldN op = 0 then .ok (mk (fieldX op) (fieldY op)) else .error (.invalidOpcode op)

/-- Family E, format XFF (30_encoding.md R64, R65). -/
def decodeKey (op : Opcode) : Except DecodeError Instr :=
  match fieldKk op with
  | 0x9E#8 => .ok (.skp (fieldX op))
  | 0xA1#8 => .ok (.sknp (fieldX op))
  | _ => .error (.invalidOpcode op)

/-- Family F, format XFF (30_encoding.md R64, R65). -/
def decodeMisc (op : Opcode) : Except DecodeError Instr :=
  match fieldKk op with
  | 0x07#8 => .ok (.ldVxDt (fieldX op))
  | 0x0A#8 => .ok (.ldVxKey (fieldX op))
  | 0x15#8 => .ok (.ldDtVx (fieldX op))
  | 0x18#8 => .ok (.ldStVx (fieldX op))
  | 0x1E#8 => .ok (.addIndex (fieldX op))
  | 0x29#8 => .ok (.ldFont (fieldX op))
  | 0x33#8 => .ok (.ldBcd (fieldX op))
  | 0x55#8 => .ok (.stRegs (fieldX op))
  | 0x65#8 => .ok (.ldRegs (fieldX op))
  | _ => .error (.invalidOpcode op)

/-- The decoder, by explicit nibble extraction (30_encoding.md R63): total on the 65536 opcodes. -/
def decode (op : Opcode) : Except DecodeError Instr :=
  match family op with
  | 0 => decodeFix op
  | 1 => .ok (.jp (fieldNnn op))
  | 2 => .ok (.call (fieldNnn op))
  | 3 => .ok (.seImm (fieldX op) (fieldKk op))
  | 4 => .ok (.sneImm (fieldX op) (fieldKk op))
  | 5 => decodeXy0 .seReg op
  | 6 => .ok (.ldImm (fieldX op) (fieldKk op))
  | 7 => .ok (.addImm (fieldX op) (fieldKk op))
  | 8 => decodeAlu op
  | 9 => decodeXy0 .sneReg op
  | 10 => .ok (.ldIndex (fieldNnn op))
  | 11 => .ok (.jpV0 (fieldNnn op))
  | 12 => .ok (.rnd (fieldX op) (fieldKk op))
  | 13 => .ok (.drw (fieldX op) (fieldY op) (fieldN op))
  | 14 => decodeKey op
  | 15 => decodeMisc op
  | _ => .error (.invalidOpcode op)

/-- The opcode of two bytes in the order they lie in memory: the first is bits 15..8
(20_memory.md R43, the spec's decision D2; log 10). The one place byte order is decided. -/
def opcodeOfBytes (hi lo : Byte) : Opcode := hi ++ lo

/-- The two bytes of an opcode, in the order they lie in memory (20_memory.md R43). -/
def bytesOfOpcode (op : Opcode) : Byte × Byte := (op.extractLsb' 8 8, op.extractLsb' 0 8)

/-- Decoding from a stream of bytes: one instruction and the rest of the stream. -/
def decodeBytes : List Byte → Except DecodeError (Instr × List Byte)
  | hi :: lo :: rest => (decode (opcodeOfBytes hi lo)).map fun i => (i, rest)
  | _ => .error .truncated

/-- A nibble of an opcode from an index 0 to 15. -/
def nibble (a : Fin 16) : BitVec 4 := BitVec.ofFin a

/-- Format NNN (30_encoding.md R62). -/
def formatNnn (fam : Fin 16) (nnn : Addr) : Opcode := nibble fam ++ nnn

/-- Formats XKK and XFF: the low byte is an immediate or a function code (30_encoding.md R62). -/
def formatXkk (fam : Fin 16) (x : Reg) (kk : Byte) : Opcode := nibble fam ++ nibble x ++ kk

/-- Formats XYN and XYF: the low nibble is a height or a function code (30_encoding.md R62). -/
def formatXyn (fam : Fin 16) (x y : Reg) (n : Fin 16) : Opcode := nibble fam ++ nibble x ++ nibble y ++ nibble n

/-- The opcode of an instruction, row by row from 30_encoding.md R64. -/
def encode : Instr → Opcode
  | .cls => 0x00E0#16
  | .ret => 0x00EE#16
  | .jp nnn => formatNnn 0x1 nnn
  | .call nnn => formatNnn 0x2 nnn
  | .seImm x kk => formatXkk 0x3 x kk
  | .sneImm x kk => formatXkk 0x4 x kk
  | .seReg x y => formatXyn 0x5 x y 0x0
  | .ldImm x kk => formatXkk 0x6 x kk
  | .addImm x kk => formatXkk 0x7 x kk
  | .ldReg x y => formatXyn 0x8 x y 0x0
  | .or x y => formatXyn 0x8 x y 0x1
  | .and x y => formatXyn 0x8 x y 0x2
  | .xor x y => formatXyn 0x8 x y 0x3
  | .addReg x y => formatXyn 0x8 x y 0x4
  | .sub x y => formatXyn 0x8 x y 0x5
  | .shr x y => formatXyn 0x8 x y 0x6
  | .subn x y => formatXyn 0x8 x y 0x7
  | .shl x y => formatXyn 0x8 x y 0xE
  | .sneReg x y => formatXyn 0x9 x y 0x0
  | .ldIndex nnn => formatNnn 0xA nnn
  | .jpV0 nnn => formatNnn 0xB nnn
  | .rnd x kk => formatXkk 0xC x kk
  | .drw x y n => formatXyn 0xD x y n
  | .skp x => formatXkk 0xE x 0x9E#8
  | .sknp x => formatXkk 0xE x 0xA1#8
  | .ldVxDt x => formatXkk 0xF x 0x07#8
  | .ldVxKey x => formatXkk 0xF x 0x0A#8
  | .ldDtVx x => formatXkk 0xF x 0x15#8
  | .ldStVx x => formatXkk 0xF x 0x18#8
  | .addIndex x => formatXkk 0xF x 0x1E#8
  | .ldFont x => formatXkk 0xF x 0x29#8
  | .ldBcd x => formatXkk 0xF x 0x33#8
  | .stRegs x => formatXkk 0xF x 0x55#8
  | .ldRegs x => formatXkk 0xF x 0x65#8

/-- The opcode a numbered table word stands for: its low `nbits` bits, at most 16. -/
def tableOpcode (nbits w : Nat) : Opcode := BitVec.ofNat 16 (w % 2 ^ min nbits 16)

/-- The instruction the decoder reads from a word of spec/opcode_table.json, laid out in bytes as memory
stores it. -/
def decodeTableWord (nbits w : Nat) : Option Instr :=
  match decodeBytes [(bytesOfOpcode (tableOpcode nbits w)).1, (bytesOfOpcode (tableOpcode nbits w)).2] with
  | .ok (i, _) => some i
  | .error _ => none

end Sys2Proof
end

