-- ==== Sys2Proof/Machine/State.lean ====
section
/-! DEFINITION. The machine's state as plain data (spec 10_state.md R10 to R33), its faults (60_exceptions.md R180) and its state after reset. -/

namespace Sys2Proof.Machine

/-- MEM as a list of cells (20_memory.md R40), in the canonical form `Memory.wf` of Machine/Ops.lean:
addresses strictly rising, and no cell equal to what an unlisted address reads as (log 21). -/
abbrev Memory := List Host.Cell

/-- FB: 32 rows of 64 pixels, `true` for 1 (10_state.md R25). -/
abbrev Framebuffer := Vector (Vector Bool 64) 32

/-- STATUS (10_state.md R29). -/
inductive Status where
  | running
  /-- A key wait is on: `x` is the register that receives the key. -/
  | awaitingKey (x : Reg)
  deriving DecidableEq, Repr

/-- Everything the spec gives the machine (10_state.md R31, section 14), and the model's own draw counter. -/
structure State where
  /-- V[0..15] (R10). -/
  v : Vector Byte 16
  /-- I (R13). -/
  i : Addr
  /-- PC (R14). -/
  pc : Addr
  /-- STACK, the most recent push last (R17, R20, R21). -/
  stack : List Addr
  /-- DT (R22). -/
  dt : Byte
  /-- ST (R22). -/
  st : Byte
  /-- MEM (R24). -/
  mem : Memory
  /-- FB (R25). -/
  fb : Framebuffer
  /-- DRAW (R28). -/
  draw : Bool
  /-- KEY[0..15], `true` for pressed (R26). -/
  key : Vector Bool 16
  /-- LASTKEY (R27). -/
  lastKey : Option Key
  /-- STATUS (R29). -/
  status : Status
  /-- ROMIMG (R30). -/
  romImg : List Byte
  /-- The MODEL's own field: how many bytes RND has drawn (41_register_alu.md R114; log 3). -/
  draws : Nat
  deriving DecidableEq, Repr

/-- What ends an event without changing the state (60_exceptions.md R180, R181). All four are the spec's own
faults; all are safe, since the spec's machine makes no progress past them either (R188). -/
inductive Fault where
  /-- Raised by decode in `step` on an opcode outside the 34 rows (R182). Safe. -/
  | invalidOpcode (op : Opcode) (pc0 : Addr)
  /-- Raised by RET on an empty STACK (R183). Safe. -/
  | stackUnderflow (op : Opcode) (pc0 : Addr)
  /-- Raised by CALL when STACK already holds STACK_DEPTH entries (R184). Safe. -/
  | stackOverflow (op : Opcode) (pc0 : Addr)
  /-- Raised by `loadRom` on more than ROM_MAX bytes (R185); never by `step`. Safe. -/
  | romTooLarge (len : Nat)
  deriving DecidableEq, Repr

/-- Why the model gives no meaning. -/
inductive Refusal where
  /-- Raised by `exec` for an instruction without a meaning yet. No arm of this model raises it. Safe. -/
  | notModelled (mnemonic : String)
  deriving DecidableEq, Repr

/-- The state after `construct()` with the default FONT (10_state.md R33, 70_reset_and_hazards.md R210), which is
also the state after `reset()` when no program was ever loaded; for any FONT see `State.fresh`. Zeros other than MEM are the spec's decision D4 (log 2). -/
def State.reset : State where
  v := Vector.replicate 16 0
  i := 0
  pc := Config.romBase
  stack := []
  dt := 0
  st := 0
  mem := []
  fb := Vector.replicate 32 (Vector.replicate 64 false)
  draw := false
  key := Vector.replicate 16 false
  lastKey := none
  status := .running
  romImg := []
  draws := 0

end Sys2Proof.Machine
end

