-- ==== Sys2Proof/Machine/Ops.lean ====
section
/-! DEFINITION. The named operations over memory, the call stack and the fields of the state, the instruction fetch, and ending a step in a fault. -/

namespace Sys2Proof.Machine

/-- The outcome of an instruction or a step. -/
abbrev Result := Host.Outcome State Fault Refusal

/-! ### Memory (20_memory.md) -/

/-- What `MEM[a]` holds after construct with the FONT `font` (20_memory.md R48): the font at 0x000..0x04F and
zero elsewhere. -/
def constructByte (font : Config.Font) (a : Nat) : Byte := font.toList.getD a 0

/-- What an address no cell lists reads as: the contents of `State.reset`, which has the default FONT (log 21). -/
def Memory.initial (a : Nat) : Byte := constructByte Config.font a

/-- `MEM[a]` for a key `a` below 4096. -/
def Memory.lookup : Memory → Nat → Byte
  | [], a => Memory.initial a
  | (k, b) :: m, a => if k = a then b else Memory.lookup m a

/-- `m` without a cell at `a`. -/
def Memory.erase : Memory → Nat → Memory
  | [], _ => []
  | (k, b) :: m, a => if k = a then Memory.erase m a else (k, b) :: Memory.erase m a

/-- `m` with the cell `(a, b)` put before the first larger address. -/
def Memory.insert : Memory → Nat → Byte → Memory
  | [], a, b => [(a, b)]
  | (k, c) :: m, a, b => if a < k then (a, b) :: (k, c) :: m else (k, c) :: Memory.insert m a b

/-- `MemRead(a, 1)` (20_memory.md R41). The 12-bit address is already reduced mod 4096. -/
def Memory.read (m : Memory) (a : Addr) : Byte := Memory.lookup m a.toNat

/-- `MemWrite(a, 1, b)` (20_memory.md R42): a byte equal to what an unlisted address reads as is not listed. -/
def Memory.write (m : Memory) (a : Addr) (b : Byte) : Memory :=
  if b = Memory.initial a.toNat then Memory.erase m a.toNat
  else Memory.insert (Memory.erase m a.toNat) a.toNat b

/-- The canonical form from a lower bound on: every address at least `lo`, strictly rising, inside the
address space, no cell equal to what an unlisted address reads as. -/
def Memory.wfFrom (lo : Nat) : Memory → Bool
  | [] => true
  | (k, b) :: m => lo ≤ k && k < Config.memSize && b != Memory.initial k && Memory.wfFrom (k + 1) m

/-- The canonical form of memory (log 21). -/
def Memory.wf (m : Memory) : Bool := Memory.wfFrom 0 m

/-- The bytes at `a`, `a + 1`, …, `n` of them, each address wrapping by itself (20_memory.md R46). -/
def Memory.readBlock (m : Memory) (a : Addr) : Nat → List Byte
  | 0 => []
  | n + 1 => m.read a :: m.readBlock (a + 1) n

/-- Bytes written to `a`, `a + 1`, … in that order, each address wrapping by itself (20_memory.md R46). -/
def Memory.writeBlock (m : Memory) (a : Addr) : List Byte → Memory
  | [] => m
  | b :: bs => (m.write a b).writeBlock (a + 1) bs

/-- MEM after construct with the FONT `font` (20_memory.md R48); nothing is listed for the default FONT. -/
def Memory.ofFont (font : Config.Font) : Memory := Memory.writeBlock [] 0 font.toList

/-! ### Writing one field of the state -/

def State.setV (s : State) (v : Vector Byte 16) : State := { s with v := v }
def State.setI (s : State) (a : Addr) : State := { s with i := a }
def State.setPc (s : State) (a : Addr) : State := { s with pc := a }
def State.setStack (s : State) (k : List Addr) : State := { s with stack := k }
def State.setDt (s : State) (b : Byte) : State := { s with dt := b }
def State.setSt (s : State) (b : Byte) : State := { s with st := b }
def State.setMem (s : State) (m : Memory) : State := { s with mem := m }
def State.setFb (s : State) (f : Framebuffer) : State := { s with fb := f }
def State.setDraw (s : State) (b : Bool) : State := { s with draw := b }
def State.setKeys (s : State) (k : Vector Bool 16) : State := { s with key := k }
def State.setLastKey (s : State) (k : Option Key) : State := { s with lastKey := k }
def State.setStatus (s : State) (u : Status) : State := { s with status := u }
def State.setRomImg (s : State) (r : List Byte) : State := { s with romImg := r }
def State.setDraws (s : State) (n : Nat) : State := { s with draws := n }

/-! ### PC, the fetch, faults -/

/-- `PC <- (PC + 2) mod 4096`: the increment of a step and the skip (10_state.md R15). -/
def State.advance (s : State) : State := s.setPc (s.pc + 2)

/-- The skip of a conditional instruction (40_control_flow.md R88 to R91). -/
def State.skipIf (s : State) (c : Bool) : State := if c then s.advance else s

/-- `MemRead(PC, 2)`, the opcode the next step fetches (20_memory.md R43, R45: any PC, odd or even). -/
def State.fetchOpcode (s : State) : Opcode := opcodeOfBytes (s.mem.read s.pc) (s.mem.read (s.pc + 1))

/-- `pc0`, the address of the executing instruction: PC was advanced by 2 at the fetch (10_state.md R14; log 22). -/
def State.instrAddr (s : State) : Addr := s.pc - 2

/-- `raise F(op, pc0)` (60_exceptions.md R181, R187): the one way a step ends in a fault. The machine has no
fault entry (no vector, no saved register, no mode) and so no return from one (R188): the event ends with the
typed fault and its state is the state before it (log 7). -/
def State.raise (mk : Opcode → Addr → Fault) (op : Opcode) (s : State) : Result := .fault (mk op s.instrAddr)

/-- The numeric code of a fault (60_exceptions.md R180, the spec's decision D10). -/
def faultCode : Fault → Nat
  | .invalidOpcode _ _ => 1
  | .stackUnderflow _ _ => 2
  | .stackOverflow _ _ => 3
  | .romTooLarge _ => 4

/-! ### The call stack (10_state.md R17 to R21) -/

/-- `push(a)`: nothing when STACK is full (10_state.md R20; log 14). -/
def State.push (s : State) (a : Addr) : Option State :=
  if s.stack.length < Config.stackDepth then some (s.setStack (s.stack ++ [a])) else none

/-- `pop()`: nothing when STACK is empty, otherwise its last element and the state without it (10_state.md R21). -/
def State.pop (s : State) : Option (Addr × State) :=
  s.stack.getLast?.map fun a => (a, s.setStack s.stack.dropLast)

end Sys2Proof.Machine
end

