-- ==== Sys2Proof/Machine/Operands.lean ====
section
/-! DEFINITION. Every operand form: general registers (10_state.md R10), the key a register names (44_keypad_timer.md R160), the block at I (42_index_memory.md R126). -/

namespace Sys2Proof.Machine

/-- Read `V[x]`. No register is hardwired (10_state.md R10). -/
def State.reg (s : State) (x : Reg) : Byte := s.v.get x

/-- `V[x] <- b`. -/
def State.setReg (s : State) (x : Reg) (b : Byte) : State := s.setV (s.v.set x b)

/-- `KEY[k]`. -/
def State.keyDown (s : State) (k : Key) : Bool := s.key.get k

/-- `KEY[k] <- b`. -/
def State.setKey (s : State) (k : Key) (b : Bool) : State := s.setKeys (s.key.set k b)

/-- The key a register value selects, its low nibble (44_keypad_timer.md R160, the spec's decision D13; log 12). -/
def keyIndex (b : Byte) : Key := Fin.ofNat 16 (b.toNat % 16)

/-- The key `V[x]` names. -/
def State.keyOf (s : State) (x : Reg) : Key := keyIndex (s.reg x)

/-- An 8-bit value as a 12-bit one: its number is the same (00_scope.md section 6, `zext_N`). -/
def widen (b : Byte) : Addr := b.setWidth 12

/-- `(I + k) mod 4096`, the one data addressing mode (42_index_memory.md R126). -/
def State.indexAddr (s : State) (k : Nat) : Addr := s.i + BitVec.ofNat 12 k

/-- The `n` bytes at I (42_index_memory.md R126). -/
def State.readAtIndex (s : State) (n : Nat) : List Byte := s.mem.readBlock s.i n

/-- Bytes stored from I on (42_index_memory.md R126). -/
def State.writeAtIndex (s : State) (bs : List Byte) : State := s.setMem (s.mem.writeBlock s.i bs)

/-- The values of V0 to Vx, x + 1 of them (42_index_memory.md R124). -/
def State.regsUpTo (s : State) (x : Reg) : List Byte := s.v.toList.take (x.val + 1)

/-- `for i = 0 to x: V[i] <- MemRead(I + i, 1)`; registers above Vx keep their values (42_index_memory.md R125). -/
def State.loadRegsUpTo (s : State) (x : Reg) : State :=
  s.setV (Vector.ofFn fun r : Reg => if r ≤ x then s.mem.read (s.indexAddr r.val) else s.reg r)

/-- `I <- (I + x + 1) mod 4096` (42_index_memory.md R124, R125; log 24). -/
def State.bumpIndex (s : State) (x : Reg) : State := s.setI (s.indexAddr (x.val + 1))

end Sys2Proof.Machine
end

