-- ==== Sys2Proof/Machine/Alu.lean ====
section
/-! DEFINITION. Register load, arithmetic, logic, shift and random instructions (41_register_alu.md R100 to R114).
The statements of a rule run in the order written, each reading the registers as the one before left them
(R100, the spec's decision D6; log 11). -/

namespace Sys2Proof.Machine

/-- Write the result, then the flag, both computed from the old registers: the order of OR, AND, XOR and
ADD_REG (41_register_alu.md R100). -/
def State.resultThenFlag (s : State) (x : Reg) (result flag : Byte) : State := (s.setReg x result).setReg vf flag

/-- Write the flag, then the result computed from the registers as the flag write left them: the order of SUB,
SUBN, SHR and SHL (41_register_alu.md R100). -/
def State.flagThenResult (s : State) (x : Reg) (flag : Byte) (result : State → Byte) : State :=
  (s.setReg vf flag).setReg x (result (s.setReg vf flag))

/-- LD_IMM (41_register_alu.md R101). -/
def execLdImm (x : Reg) (kk : Byte) (s : State) : Result := .next (s.setReg x kk)

/-- ADD_IMM: no flag (41_register_alu.md R102). -/
def execAddImm (x : Reg) (kk : Byte) (s : State) : Result := .next (s.setReg x (s.reg x + kk))

/-- LD_REG (41_register_alu.md R103). -/
def execLdReg (x y : Reg) (s : State) : Result := .next (s.setReg x (s.reg y))

/-- OR (41_register_alu.md R104). -/
def execOr (x y : Reg) (s : State) : Result := .next (s.resultThenFlag x (s.reg x ||| s.reg y) logicFlag)

/-- AND (41_register_alu.md R105). -/
def execAnd (x y : Reg) (s : State) : Result := .next (s.resultThenFlag x (s.reg x &&& s.reg y) logicFlag)

/-- XOR (41_register_alu.md R106). -/
def execXor (x y : Reg) (s : State) : Result := .next (s.resultThenFlag x (s.reg x ^^^ s.reg y) logicFlag)

/-- ADD_REG (41_register_alu.md R107). -/
def execAddReg (x y : Reg) (s : State) : Result :=
  .next (s.resultThenFlag x (s.reg x + s.reg y) (carryFlag (s.reg x) (s.reg y)))

/-- SUB (41_register_alu.md R108). -/
def execSub (x y : Reg) (s : State) : Result :=
  .next (s.flagThenResult x (notBorrowFlag (s.reg x) (s.reg y)) fun u => u.reg x - u.reg y)

/-- SHR: the y field is ignored (41_register_alu.md R109). -/
def execShr (x _y : Reg) (s : State) : Result :=
  .next (s.flagThenResult x (lowBitFlag (s.reg x)) fun u => u.reg x >>> 1)

/-- SUBN (41_register_alu.md R110). -/
def execSubn (x y : Reg) (s : State) : Result :=
  .next (s.flagThenResult x (notBorrowFlag (s.reg y) (s.reg x)) fun u => u.reg y - u.reg x)

/-- SHL: the y field is ignored (41_register_alu.md R111). -/
def execShl (x _y : Reg) (s : State) : Result :=
  .next (s.flagThenResult x (highBitFlag (s.reg x)) fun u => u.reg x <<< 1)

/-- RND once its byte is drawn: `V[x] <- r & kk` (41_register_alu.md R112), and the next RND draws afresh. -/
def State.maskDraw (s : State) (x : Reg) (kk r : Byte) : State := (s.setReg x (r &&& kk)).setDraws (s.draws + 1)

/-- RND: the byte is a free value (41_register_alu.md R112, R114; log 3). -/
def execRnd (x : Reg) (kk : Byte) (s : State) : Result := .next (s.maskDraw x kk (Config.drawByte s.draws))

end Sys2Proof.Machine
end

