-- ==== Sys2Proof/Machine/Control.lean ====
section
/-! DEFINITION. Control transfer: RET, JP, CALL, JP_V0, SE_IMM, SNE_IMM, SE_REG, SNE_REG (40_control_flow.md R84 to R91).
Every meaning runs on the state after the PC advance of R80. -/

namespace Sys2Proof.Machine

/-- RET (40_control_flow.md R84; StackUnderflow, 60_exceptions.md R183). -/
def execRet (s : State) : Result :=
  match s.pop with
  | some (t, u) => .next (u.setPc t)
  | none => s.raise .stackUnderflow (encode .ret)

/-- JP (40_control_flow.md R85). -/
def execJp (nnn : Addr) (s : State) : Result := .next (s.setPc nnn)

/-- CALL (40_control_flow.md R86; StackOverflow, 60_exceptions.md R184). -/
def execCall (nnn : Addr) (s : State) : Result :=
  match s.push s.pc with
  | some u => .next (u.setPc nnn)
  | none => s.raise .stackOverflow (encode (.call nnn))

/-- JP_V0: the register is always V0 (40_control_flow.md R87). -/
def execJpV0 (nnn : Addr) (s : State) : Result := .next (s.setPc (nnn + widen (s.reg 0)))

/-- SE_IMM (40_control_flow.md R88). -/
def execSeImm (x : Reg) (kk : Byte) (s : State) : Result := .next (s.skipIf (s.reg x == kk))

/-- SNE_IMM (40_control_flow.md R89). -/
def execSneImm (x : Reg) (kk : Byte) (s : State) : Result := .next (s.skipIf (s.reg x != kk))

/-- SE_REG (40_control_flow.md R90). -/
def execSeReg (x y : Reg) (s : State) : Result := .next (s.skipIf (s.reg x == s.reg y))

/-- SNE_REG (40_control_flow.md R91). -/
def execSneReg (x y : Reg) (s : State) : Result := .next (s.skipIf (s.reg x != s.reg y))

end Sys2Proof.Machine
end

