-- ==== Sys2Proof/Machine/Framebuffer.lean ====
section
/-! DEFINITION. The framebuffer engine: clear and the XOR sprite drawing with wraparound and collision (43_display.md R140 to R142). -/

namespace Sys2Proof.Machine

/-- `FB[r][c]` (43_display.md R140). -/
def Framebuffer.pixel (f : Framebuffer) (r : Fin 32) (c : Fin 64) : Bool := (f.get r).get c

/-- `FB[r][c] <- b`. -/
def Framebuffer.setPixel (f : Framebuffer) (r : Fin 32) (c : Fin 64) (b : Bool) : Framebuffer :=
  f.set r ((f.get r).set c b)

/-- `clear()` (43_display.md R141). -/
def Framebuffer.blank : Framebuffer := Vector.replicate 32 (Vector.replicate 64 false)

/-- The framebuffer while a sprite is drawn, and the collision bit so far. -/
structure Canvas where
  fb : Framebuffer
  hit : Bool
  deriving DecidableEq, Repr

/-- Column `x mod 64` (43_display.md R142). -/
def wrapCol (x : Nat) : Fin 64 := Fin.ofNat 64 x

/-- Row `y mod 32` (43_display.md R142). -/
def wrapRow (y : Nat) : Fin 32 := Fin.ofNat 32 y

/-- One set sprite bit: note a collision if the pixel is 1, then toggle it (43_display.md R142). -/
def toggle (x y : Nat) (k : Canvas) : Canvas where
  fb := k.fb.setPixel (wrapRow y) (wrapCol x) (!k.fb.pixel (wrapRow y) (wrapCol x))
  hit := k.hit || k.fb.pixel (wrapRow y) (wrapCol x)

/-- Bit position `b` of a sprite row, most significant first: a 0 bit touches nothing (43_display.md R142). -/
def drawBit (x0 y : Nat) (row : Byte) (k : Canvas) (b : Nat) : Canvas :=
  if row.getLsbD (7 - b) then toggle (x0 + b) y k else k

/-- One sprite row: `for b = 0 to 7` (43_display.md R142). -/
def drawRow (x0 y : Nat) (row : Byte) (k : Canvas) : Canvas := [0, 1, 2, 3, 4, 5, 6, 7].foldl (drawBit x0 y row) k

/-- The sprite rows from row `y` on: `for r = 0 to m - 1` (43_display.md R142). -/
def drawRows (x0 : Nat) : Nat → List Byte → Canvas → Canvas
  | _, [], k => k
  | y, row :: rows, k => drawRows x0 (y + 1) rows (drawRow x0 y row k)

/-- `drawSprite(x0, y0, rows)` (43_display.md R142): the new framebuffer and the collision bit. -/
def drawSprite (x0 y0 : Nat) (rows : List Byte) (f : Framebuffer) : Canvas := drawRows x0 y0 rows ⟨f, false⟩

end Sys2Proof.Machine
end

