-- ==== Sys2Proof/Machine/Display.lean ====
section
/-! DEFINITION. Display instructions: CLS, DRW (43_display.md R143, R145, R146). -/

namespace Sys2Proof.Machine

/-- CLS: DRAW is set even when the screen was already clear (43_display.md R145, the spec's decision D7; log 15). -/
def execCls (s : State) : Result := .next ((s.setFb Framebuffer.blank).setDraw true)

/-- The sprite `DRW Vx, Vy, n` draws, on the registers, memory and framebuffer of `s` (43_display.md R146). -/
def State.sprite (s : State) (x y : Reg) (n : Fin 16) : Canvas :=
  drawSprite (s.reg x).toNat (s.reg y).toNat (s.readAtIndex n.val) s.fb

/-- DRW: the coordinates are read before VF is written; DRAW is always set (43_display.md R143, R146). -/
def execDrw (x y : Reg) (n : Fin 16) (s : State) : Result :=
  .next (((s.setFb (s.sprite x y n).fb).setReg vf (flagByte (s.sprite x y n).hit)).setDraw true)

end Sys2Proof.Machine
end

