-- ==== Sys2Proof/Machine/IndexMemory.lean ====
section
/-! DEFINITION. Index register and memory instructions (42_index_memory.md R120 to R126). -/

namespace Sys2Proof.Machine

/-- LD_INDEX (42_index_memory.md R120). -/
def execLdIndex (nnn : Addr) (s : State) : Result := .next (s.setI nnn)

/-- ADD_INDEX: no flag (42_index_memory.md R121). -/
def execAddIndex (x : Reg) (s : State) : Result := .next (s.setI (s.i + widen (s.reg x)))

/-- LD_FONT: the whole of Vx times 5, never reduced (42_index_memory.md R122). -/
def execLdFont (x : Reg) (s : State) : Result := .next (s.setI (widen (s.reg x) * 5))

/-- The three decimal digits, hundreds first (42_index_memory.md R123). -/
def bcdDigits (b : Byte) : List Byte := [b / 100, b / 10 % 10, b % 10]

/-- LD_BCD: I is not changed (42_index_memory.md R123). -/
def execLdBcd (x : Reg) (s : State) : Result := .next (s.writeAtIndex (bcdDigits (s.reg x)))

/-- ST_REGS (42_index_memory.md R124). -/
def execStRegs (x : Reg) (s : State) : Result := .next ((s.writeAtIndex (s.regsUpTo x)).bumpIndex x)

/-- LD_REGS (42_index_memory.md R125). -/
def execLdRegs (x : Reg) (s : State) : Result := .next ((s.loadRegsUpTo x).bumpIndex x)

end Sys2Proof.Machine
end

