-- ==== Sys2Proof/Machine/KeypadTimer.lean ====
section
/-! DEFINITION. Keypad and timer instructions (44_keypad_timer.md R160 to R167). -/

namespace Sys2Proof.Machine

/-- SKP (44_keypad_timer.md R161). -/
def execSkp (x : Reg) (s : State) : Result := .next (s.skipIf (s.keyDown (s.keyOf x)))

/-- SKNP (44_keypad_timer.md R162). -/
def execSknp (x : Reg) (s : State) : Result := .next (s.skipIf (!s.keyDown (s.keyOf x)))

/-- LD_VX_DT (44_keypad_timer.md R165). -/
def execLdVxDt (x : Reg) (s : State) : Result := .next (s.setReg x s.dt)

/-- LD_VX_KEY: begin the key wait and no more; `press` ends it (44_keypad_timer.md R164, the spec's decision
D11; log 13). -/
def execLdVxKey (x : Reg) (s : State) : Result := .next ((s.setLastKey none).setStatus (.awaitingKey x))

/-- LD_DT_VX (44_keypad_timer.md R166). -/
def execLdDtVx (x : Reg) (s : State) : Result := .next (s.setDt (s.reg x))

/-- LD_ST_VX: a store never requests a tone (44_keypad_timer.md R167; log 17). -/
def execLdStVx (x : Reg) (s : State) : Result := .next (s.setSt (s.reg x))

end Sys2Proof.Machine
end

