-- ==== Sys2Proof/Machine/Step.lean ====
section
/-! DEFINITION. The event `step()` (40_control_flow.md R80 to R82), and the placing of one instruction where it fetches. -/

namespace Sys2Proof.Machine

/-- `step()`: one fetch, PC advance, decode and execute (40_control_flow.md R80); while a key wait is on,
nothing at all (R81; log 6). -/
def step (s : State) : Host.Outcome State Fault Refusal :=
  match s.status with
  | .awaitingKey _ => .next s
  | .running =>
    match decode s.fetchOpcode with
    | .ok i => exec i s.advance
    | .error _ => s.advance.raise .invalidOpcode s.fetchOpcode

/-- The opcode of a table word stored at PC, high byte first, and the machine Running, so that the next step
fetches and runs it (log 8, log 9). -/
def State.withFetchWord (s : State) (nbits w : Nat) : State :=
  (s.setMem ((s.mem.write s.pc (bytesOfOpcode (tableOpcode nbits w)).1).write (s.pc + 1)
    (bytesOfOpcode (tableOpcode nbits w)).2)).setStatus .running

end Sys2Proof.Machine
end

