-- ==== Sys2Proof/Machine/Environment.lean ====
section
/-! DEFINITION. The events of the Clock Driver, the input backend and the renderer other than step (60_exceptions.md R190 to R200). -/

namespace Sys2Proof.Machine

/-- A timer counted down once, clamped at 0 (60_exceptions.md R190). -/
def countDown (b : Byte) : Byte := if b = 0 then 0 else b - 1

/-- `tick60()` in any STATUS (60_exceptions.md R190). -/
def State.tick60 (s : State) : State := (s.setDt (countDown s.dt)).setSt (countDown s.st)

/-- Whether `tick60()` emits a ToneRequest: exactly when it takes ST from 1 to 0 (60_exceptions.md R190, R192;
log 17). -/
def State.tickTone (s : State) : Bool := s.st == 1

/-- What a press does to a key wait: fill the waiting register and run again (60_exceptions.md R195; log 13). -/
def State.endKeyWait (s : State) (k : Key) : State :=
  match s.status with
  | .awaitingKey x => (s.setReg x (BitVec.ofNat 8 k.val)).setStatus .running
  | .running => s

/-- `press(k)` (60_exceptions.md R195). -/
def State.press (s : State) (k : Key) : State := ((s.setKey k true).setLastKey (some k)).endKeyWait k

/-- `release(k)` (60_exceptions.md R196). -/
def State.release (s : State) (k : Key) : State := s.setKey k false

/-- The 2048 pixels of FB, row-major: index `r * 64 + c` (60_exceptions.md R199; log 23). -/
def State.readFramebuffer (s : State) : List Bool := s.fb.toList.flatMap Vector.toList

/-- `takeDrawFlag()` clears DRAW after returning it (60_exceptions.md R200). -/
def State.clearDraw (s : State) : State := s.setDraw false

end Sys2Proof.Machine
end

