-- ==== Sys2Proof/Machine/Lifecycle.lean ====
section
/-! DEFINITION. The lifecycle events construct, loadRom and reset (70_reset_and_hazards.md R210 to R213). -/

namespace Sys2Proof.Machine

/-- The machine newly made with the FONT `font` (10_state.md R33, 70_reset_and_hazards.md R210; FONT is an argument,
the spec's decision D5; log 1). -/
def State.fresh (font : Config.Font) : State := State.reset.setMem (Memory.ofFont font)

/-- `construct()` (70_reset_and_hazards.md R210): everything is discarded, ROMIMG included. The model's draw
counter goes on, so that the draws after it stay free (log 4). -/
def State.construct (s : State) (font : Config.Font) : State := (State.fresh font).setDraws s.draws

/-- `loadRom(bytes)` when the bytes fit: copy, set PC, remember the image, and nothing else
(70_reset_and_hazards.md R211, the spec's decision D16; log 16). -/
def State.copyRom (s : State) (bytes : List Byte) : State :=
  ((s.setMem (s.mem.writeBlock Config.romBase bytes)).setPc Config.romBase).setRomImg bytes

/-- `loadRom(bytes)` (70_reset_and_hazards.md R211, R212). -/
def State.loadRom (s : State) (bytes : List Byte) : Result :=
  if romFits bytes then .next (s.copyRom bytes) else .fault (.romTooLarge bytes.length)

/-- `reset()` (70_reset_and_hazards.md R213, the spec's decisions D15 and D26; log 16): every piece of state at
its construct value, the font re-applied, then the remembered image copied back. -/
def State.resetKeepingRom (s : State) (font : Config.Font) : State := (s.construct font).copyRom s.romImg

end Sys2Proof.Machine
end

