-- ==== Sys2Proof/Machine/Events.lean ====
section
/-! DEFINITION. Every event of the machine (00_scope.md R4) as one transition with what it gives back, and schedules of them (R5). -/

namespace Sys2Proof.Machine

/-- The events, exactly these (00_scope.md R4). -/
inductive Event where
  | step
  | tick60
  | press (k : Key)
  | release (k : Key)
  | readFramebuffer
  | takeDrawFlag
  | construct
  | loadRom (bytes : List Byte)
  | reset
  deriving DecidableEq, Repr

/-- What an event itself gives back (60_exceptions.md R203, 40_control_flow.md R82); STATUS comes beside it in `Report`. -/
inductive Response where
  /-- A step ran one instruction (R82). -/
  | ok
  /-- A step found a key wait on (R81). -/
  | waiting
  /-- An event that gives nothing back, or a loadRom that succeeded. -/
  | done
  /-- A tick that asks the audio backend for one tone (R192). -/
  | toneRequest
  /-- The framebuffer, row-major (R199). -/
  | pixels (p : List Bool)
  /-- DRAW as it was (R200). -/
  | drawFlag (b : Bool)
  /-- The event ended in a fault and changed nothing (R181). -/
  | fault (f : Fault)
  /-- The model gave no meaning; never happens, since no arm of exec refuses. -/
  | refused (r : Refusal)
  deriving DecidableEq, Repr

/-- The result of a step that completed: Waiting if a key wait was on, otherwise Ok (40_control_flow.md R82). -/
def State.stepResult (s : State) : Response :=
  match s.status with
  | .awaitingKey _ => .waiting
  | .running => .ok

/-- An outcome as a next state and a response: a fault leaves the state as it was (60_exceptions.md R181; log 7). -/
def State.settle (s : State) (onNext : Response) : Result → State × Response
  | .next t => (t, onNext)
  | .fault f => (s, .fault f)
  | .refused r => (s, .refused r)

/-- One event on a machine built with the FONT `font` (00_scope.md R3, R4). -/
def State.deliver (s : State) (font : Config.Font) : Event → State × Response
  | .step => s.settle s.stepResult (step s)
  | .tick60 => (s.tick60, if s.tickTone then .toneRequest else .done)
  | .press k => (s.press k, .done)
  | .release k => (s.release k, .done)
  | .readFramebuffer => (s, .pixels s.readFramebuffer)
  | .takeDrawFlag => (s.clearDraw, .drawFlag s.draw)
  | .construct => (s.construct font, .done)
  | .loadRom bytes => s.settle .done (s.loadRom bytes)
  | .reset => (s.resetKeepingRom font, .done)

/-- All that the environment gets back from an event (60_exceptions.md R203). -/
structure Report where
  /-- What the event itself gives back. -/
  response : Response
  /-- STATUS as the event leaves it: an output of the core (00_scope.md R4), which the host can observe (10_state.md R29).
  DESIGN CHOICE: the spec gives no event that reads it, so the model reports it beside every response (log 25). -/
  status : Status
  deriving DecidableEq, Repr

/-- What the environment gets back from one event. -/
def State.report (s : State) (font : Config.Font) (e : Event) : Report where
  response := (s.deliver font e).2
  status := (s.deliver font e).1.status

/-- A finite schedule: any sequence of events in any order (00_scope.md R5; log 5). -/
def State.runSchedule (s : State) (font : Config.Font) : List Event → State
  | [] => s
  | e :: es => (s.deliver font e).1.runSchedule font es

/-- What the environment gets back from a finite schedule, event by event. -/
def State.reports (s : State) (font : Config.Font) : List Event → List Report
  | [] => []
  | e :: es => s.report font e :: (s.deliver font e).1.reports font es

/-- An infinite schedule: an event for every time (00_scope.md R5; log 5). `s.stateAt font es n` is the state after
its first `n` events. -/
def State.stateAt (s : State) (font : Config.Font) (es : Nat → Event) : Nat → State
  | 0 => s
  | n + 1 => ((s.stateAt font es n).deliver font (es n)).1

/-- What the environment gets back from event `n` of an infinite schedule. -/
def State.reportAt (s : State) (font : Config.Font) (es : Nat → Event) (n : Nat) : Report :=
  (s.stateAt font es n).report font (es n)

end Sys2Proof.Machine
end

