-- ==== Sys2Proof/Safety.lean ====
section
/-! DEFINITION. What claims are stated in: the machine invariant, the fields an instruction may write, and safe runs. -/

namespace Sys2Proof.Machine

/-- What every reachable state satisfies: memory in canonical form (log 21), STACK and ROMIMG within their bounds
(10_state.md R17, R30). The other fields are in range by their types. -/
def State.Inv (s : State) : Prop :=
  s.mem.wf = true ∧ s.stack.length ≤ Config.stackDepth ∧ s.romImg.length ≤ Config.romMax

/-- The names of the pieces of state (10_state.md section 14), `draws` being the model's own. -/
inductive Field where
  | v | i | pc | stack | dt | st | mem | fb | draw | key | lastKey | status | romImg | draws
  deriving DecidableEq, Repr

/-- A piece of state is the same in two states; for memory, every byte reads the same. -/
def Field.Same (s t : State) : Field → Prop
  | .v => ∀ r, t.reg r = s.reg r
  | .i => t.i = s.i
  | .pc => t.pc = s.pc
  | .stack => t.stack = s.stack
  | .dt => t.dt = s.dt
  | .st => t.st = s.st
  | .mem => ∀ a, t.mem.read a = s.mem.read a
  | .fb => ∀ r c, t.fb.pixel r c = s.fb.pixel r c
  | .draw => t.draw = s.draw
  | .key => ∀ k, t.keyDown k = s.keyDown k
  | .lastKey => t.lastKey = s.lastKey
  | .status => t.status = s.status
  | .romImg => t.romImg = s.romImg
  | .draws => t.draws = s.draws

/-- Every piece of state but the listed ones is the same in `t` as in `s`. -/
def SameExcept (changed : List Field) (s t : State) : Prop := ∀ f, f ∉ changed → Field.Same s t f

/-- Every register but the listed ones is the same in `t` as in `s`. -/
def SameRegsExcept (changed : List Reg) (s t : State) : Prop := ∀ r, r ∉ changed → t.reg r = s.reg r

/-- The instruction the next step runs: none in a key wait or on an illegal opcode (40_control_flow.md R80, R81). -/
def State.nextInstr (s : State) : Option Instr :=
  match s.status, decode s.fetchOpcode with
  | .running, .ok i => some i
  | _, _ => none

/-- A run has ended in an idle loop: Running at a JP to its own address (70_reset_and_hazards.md R223). -/
def State.Idle (s : State) : Prop := s.nextInstr = some (.jp s.pc)

/-- No event of a schedule ends in a fault: a run that meets a fault has gone wrong (60_exceptions.md R188,
70_reset_and_hazards.md R223). -/
def State.FaultFree (s : State) (font : Config.Font) (es : List Event) : Prop :=
  ∀ r ∈ s.reports font es, ∀ f, r.response ≠ .fault f

/-- The pieces of state an instruction may write once it executes (10_state.md R11 to R30, 20_memory.md R46).
LD_VX_KEY's register is written by the press that ends its wait, not by the instruction (44_keypad_timer.md R164). -/
def instrMayWrite : Instr → List Field
  | .cls => [.fb, .draw]
  | .ret | .call _ => [.pc, .stack]
  | .jp _ | .jpV0 _ | .seImm _ _ | .sneImm _ _ | .seReg _ _ | .sneReg _ _ | .skp _ | .sknp _ => [.pc]
  | .ldImm _ _ | .addImm _ _ | .ldReg _ _ | .or _ _ | .and _ _ | .xor _ _ | .addReg _ _ | .sub _ _ | .shr _ _
  | .subn _ _ | .shl _ _ | .ldVxDt _ => [.v]
  | .rnd _ _ => [.v, .draws]
  | .ldIndex _ | .addIndex _ | .ldFont _ => [.i]
  | .drw _ _ _ => [.v, .fb, .draw]
  | .ldVxKey _ => [.status, .lastKey]
  | .ldDtVx _ => [.dt]
  | .ldStVx _ => [.st]
  | .ldBcd _ => [.mem]
  | .stRegs _ => [.mem, .i]
  | .ldRegs _ => [.v, .i]

/-- The general registers an instruction may write once it executes (10_state.md R12, column `writes`). -/
def instrRegsWritten : Instr → List Reg
  | .ldImm x _ | .addImm x _ | .ldReg x _ | .rnd x _ | .ldVxDt x => [x]
  | .or x _ | .and x _ | .xor x _ | .addReg x _ | .sub x _ | .shr x _ | .subn x _ | .shl x _ => [x, vf]
  | .drw _ _ _ => [vf]
  | .ldRegs x => (List.finRange 16).filter (· ≤ x)
  | .cls | .ret | .jp _ | .call _ | .seImm _ _ | .sneImm _ _ | .seReg _ _ | .sneReg _ _ | .ldIndex _ | .jpV0 _
  | .skp _ | .sknp _ | .ldVxKey _ | .ldDtVx _ | .ldStVx _ | .addIndex _ | .ldFont _ | .ldBcd _ | .stRegs _ => []

/-- How many bytes an instruction stores, all from I on (20_memory.md R46). -/
def instrStoreCount : Instr → Nat
  | .ldBcd _ => 3
  | .stRegs x => x.val + 1
  | .cls | .ret | .jp _ | .call _ | .seImm _ _ | .sneImm _ _ | .seReg _ _ | .ldImm _ _ | .addImm _ _ | .ldReg _ _
  | .or _ _ | .and _ _ | .xor _ _ | .addReg _ _ | .sub _ _ | .shr _ _ | .subn _ _ | .shl _ _ | .sneReg _ _
  | .ldIndex _ | .jpV0 _ | .rnd _ _ | .drw _ _ _ | .skp _ | .sknp _ | .ldVxDt _ | .ldVxKey _ | .ldDtVx _
  | .ldStVx _ | .addIndex _ | .ldFont _ | .ldRegs _ => 0

/-- PC after an instruction at `pc0` completes on the state `s` before its step (40_control_flow.md R92);
RET's is the last element of STACK. -/
def State.pcAfter (s : State) : Instr → Addr
  | .jp nnn | .call nnn => nnn
  | .jpV0 nnn => nnn + widen (s.reg 0)
  | .ret => s.stack.getLast?.getD 0
  | .seImm x kk => if s.reg x = kk then s.pc + 4 else s.pc + 2
  | .sneImm x kk => if s.reg x ≠ kk then s.pc + 4 else s.pc + 2
  | .seReg x y => if s.reg x = s.reg y then s.pc + 4 else s.pc + 2
  | .sneReg x y => if s.reg x ≠ s.reg y then s.pc + 4 else s.pc + 2
  | .skp x => if s.keyDown (s.keyOf x) = true then s.pc + 4 else s.pc + 2
  | .sknp x => if s.keyDown (s.keyOf x) = false then s.pc + 4 else s.pc + 2
  | .cls | .ldImm _ _ | .addImm _ _ | .ldReg _ _ | .or _ _ | .and _ _ | .xor _ _ | .addReg _ _ | .sub _ _ | .shr _ _
  | .subn _ _ | .shl _ _ | .ldIndex _ | .rnd _ _ | .drw _ _ _ | .ldVxDt _ | .ldVxKey _ | .ldDtVx _ | .ldStVx _
  | .addIndex _ | .ldFont _ | .ldBcd _ | .stRegs _ | .ldRegs _ => s.pc + 2

/-- Sprite row `k`, bit position `b` of a sprite drawn at `(x0, y0)` lands on pixel `(r, c)` and is set
(43_display.md R142). -/
def SpriteCovers (x0 y0 : Nat) (rows : List Byte) (r : Fin 32) (c : Fin 64) : Prop :=
  ∃ k b row, rows[k]? = some row ∧ b < 8 ∧ row.getLsbD (7 - b) = true ∧ (y0 + k) % 32 = r.val ∧ (x0 + b) % 64 = c.val

/-- The pieces of state an event other than a step may write (60_exceptions.md R190 to R200,
70_reset_and_hazards.md R210 to R213). A step's are those of its instruction (`instrMayWrite`) and PC. -/
def Event.mayWrite : Event → List Field
  | .tick60 => [.dt, .st]
  | .press _ => [.key, .lastKey, .v, .status]
  | .release _ => [.key]
  | .readFramebuffer => []
  | .takeDrawFlag => [.draw]
  | .loadRom _ => [.mem, .pc, .romImg]
  | .step => [.v, .i, .pc, .stack, .dt, .st, .mem, .fb, .draw, .lastKey, .status, .draws]
  | .reset => [.v, .i, .pc, .stack, .dt, .st, .mem, .fb, .draw, .key, .lastKey, .status]
  | .construct => [.v, .i, .pc, .stack, .dt, .st, .mem, .fb, .draw, .key, .lastKey, .status, .romImg]

end Sys2Proof.Machine
end

