-- ==== Sys2Proof/Certificates/Slice0/Obligations.lean ====
section
/-! DEFINITION. The statements for the provers, one `def Obligations.<Name> : Prop` each. A docstring names the rule of the spec a statement formalises, and the spec's own decision (D<n>) or the log entry it rests on where there is one. -/

open Sys2Proof Sys2Proof.Machine

/-! ### Encoding (30_encoding.md) -/

/-- No bit of an encoding is dropped: every instruction, with every operand, is decoded back from its opcode
(30_encoding.md R61, R62, R64). -/
def Obligations.DecodeOfEncodeIsTheInstruction : Prop :=
  ∀ i : Instr, decode (encode i) = .ok i

/-- Each legal opcode stands for one instruction, and that instruction encodes back to it
(30_encoding.md R63, R66: SHR and SHL keep their ignored y). -/
def Obligations.EncodeOfDecodeIsTheOpcode : Prop :=
  ∀ (op : Opcode) (i : Instr), decode op = .ok i → encode i = op

/-- 30_encoding.md R63: `op` is instruction M exactly when `op & mask(M) = match(M)`; the rows are disjoint; if
none matches, decoding gives Invalid and the step raises InvalidOpcode. -/
def Obligations.DecodesExactlyByMaskAndMatch : Prop :=
  (∀ (op : Opcode) (row : OpcodeRow), row ∈ opcodeMap →
    ((∃ i, decode op = .ok i ∧ i.id = row.id) ↔ op &&& row.mask = row.pattern)) ∧
  opcodeMap.Pairwise (fun a b => ∀ op : Opcode, ¬ (op &&& a.mask = a.pattern ∧ op &&& b.mask = b.pattern)) ∧
  (∀ op : Opcode, (∀ row ∈ opcodeMap, op &&& row.mask ≠ row.pattern) → decode op = .error (.invalidOpcode op)) ∧
  (∀ s : State, s.status = .running → (∀ row ∈ opcodeMap, s.fetchOpcode &&& row.mask ≠ row.pattern) →
    ∃ a, step s = .fault (.invalidOpcode s.fetchOpcode a))

/-- The opcodes that decode are those outside the table of illegal opcodes by family (30_encoding.md section 3). -/
def Obligations.LegalOpcodesAreThoseOfTheFamilyTable : Prop :=
  ∀ op : Opcode, (∃ i, decode op = .ok i) ↔ legalOpcode op = true

/-- Words written out bit by bit from 30_encoding.md R64, one for each family file, and two illegal ones. -/
def Obligations.WordsOfTheSpecDecodeAsItSays : Prop :=
  decode 0b0000000011101110#16 = .ok .ret ∧
  decode 0b0010001100000000#16 = .ok (.call 0x300) ∧
  decode 0b1000000100100111#16 = .ok (.subn 1 2) ∧
  decode 0b1100000100001111#16 = .ok (.rnd 1 0x0F) ∧
  decode 0b1111001101010101#16 = .ok (.stRegs 3) ∧
  decode 0b1101000000010101#16 = .ok (.drw 0 1 5) ∧
  decode 0b1111001100001010#16 = .ok (.ldVxKey 3) ∧
  decode 0b0101000100100001#16 = .error (.invalidOpcode 0x5121) ∧
  decode 0b1000000100101000#16 = .error (.invalidOpcode 0x8128)

/-! ### The step (40_control_flow.md) -/

/-- A step of a Running machine runs the instruction the two bytes at PC decode to, on the state with PC past
it (40_control_flow.md R80; first byte high is the spec's decision D2, log 10). -/
def Obligations.StepRunsTheDecodedInstruction : Prop :=
  ∀ (s : State) (i : Instr), s.status = .running →
    decode (s.mem.read s.pc ++ s.mem.read (s.pc + 1)) = .ok i →
    step s = exec i { s with pc := s.pc + 2 }

/-- While a key wait is on, a step fetches nothing, changes nothing and answers Waiting (40_control_flow.md R81, the
spec's decision D12; log 6). -/
def Obligations.StepInAKeyWaitChangesNothing : Prop :=
  ∀ (s : State) (font : Config.Font) (x : Reg), s.status = .awaitingKey x →
    step s = .next s ∧ s.deliver font .step = (s, .waiting)

/-- A step ends in a fault in exactly three cases, each with the opcode and its address (60_exceptions.md R182,
R183, R184, R186; the address and the payloads are the spec's decisions D9 and D24, log 20; the depth 16, and
that a STACK of more than 16, which no run reaches, counts as full, are D3 and log 14; none in a key wait, D12,
log 6). -/
def Obligations.StepFaultsInExactlyThreeCases : Prop :=
  ∀ (s : State) (f : Fault), step s = .fault f ↔
    s.status = .running ∧
    ((legalOpcode s.fetchOpcode = false ∧ f = .invalidOpcode s.fetchOpcode s.pc) ∨
     (s.fetchOpcode = 0x00EE ∧ s.stack = [] ∧ f = .stackUnderflow 0x00EE s.pc) ∨
     (∃ nnn, s.fetchOpcode = encode (.call nnn) ∧ 16 ≤ s.stack.length ∧
       f = .stackOverflow s.fetchOpcode s.pc))

/-- PC after every instruction that completes (40_control_flow.md R92, derived there from R80, R84 to R91 and
44_keypad_timer.md R161, R162, R164). SKP and SKNP test the key in the low nibble of Vx, the spec's decision D13
(log 12); LD_VX_KEY leaves PC where the fetch put it, the spec's decision D11 (log 13). -/
def Obligations.PcAfterEveryCompletedStep : Prop :=
  ∀ (s t : State) (i : Instr), s.nextInstr = some i → step s = .next t → t.pc = s.pcAfter i

/-- No instruction is refused: every step completes or faults. -/
def Obligations.NoStepIsRefused : Prop :=
  ∀ (s : State) (r : Refusal), step s ≠ .refused r

/-- The frame of every instruction: when it completes, only the pieces of state and the registers its rules name are
written, and in memory only the bytes it stores, from I on (10_state.md R11 to R30, 20_memory.md R46). LD_VX_KEY
writes no register here, though 10_state.md R12 lists its Vx: the press that ends its wait does
(44_keypad_timer.md R164, the spec's decision D11, log 13). The field draws, which RND advances, is the model's
own (log 3). -/
def Obligations.EveryInstructionWritesOnlyWhatItsRuleNames : Prop :=
  ∀ (i : Instr) (s t : State), exec i s = .next t →
    SameExcept (instrMayWrite i) s t ∧
    SameRegsExcept (instrRegsWritten i) s t ∧
    (∀ a : Addr, (∀ k < instrStoreCount i, a ≠ s.indexAddr k) → t.mem.read a = s.mem.read a)

/-! ### Invariants -/

/-- The state after reset satisfies the invariant (log 2, log 14, log 21). -/
def Obligations.ResetStateMeetsTheInvariant : Prop :=
  State.reset.Inv

/-- From every state that satisfies the invariant, a step leads to one that does: canonical memory (log 21), at most
16 return addresses (10_state.md R17, the spec's decision D3, log 14), a program image that fits (R30). -/
def Obligations.EveryStepKeepsTheInvariant : Prop :=
  ∀ s t : State, s.Inv → step s = .next t → t.Inv

/-- Every schedule of events, in any order, finite or infinite, keeps the invariant, whatever the FONT (00_scope.md
R5, 10_state.md R17, R30; log 5, log 14, log 21). -/
def Obligations.EveryScheduleKeepsTheInvariant : Prop :=
  ∀ (s : State) (font : Config.Font), s.Inv →
    (∀ es : List Event, (s.runSchedule font es).Inv) ∧
    (∀ (es : Nat → Event) (n : Nat), (s.stateAt font es n).Inv)

/-! ### Register load, arithmetic, logic, shift, random (41_register_alu.md) -/

/-- 41_register_alu.md R101, R102, R103. -/
def Obligations.LoadsAndAddImmediateWriteVxAlone : Prop :=
  ∀ (s : State) (x y : Reg) (kk : Byte),
    (∃ t, exec (.ldImm x kk) s = .next t ∧ t.reg x = kk ∧ SameRegsExcept [x] s t ∧ SameExcept [.v] s t) ∧
    (∃ t, exec (.addImm x kk) s = .next t ∧ (t.reg x).toNat = ((s.reg x).toNat + kk.toNat) % 256 ∧
      SameRegsExcept [x] s t ∧ SameExcept [.v] s t) ∧
    (∃ t, exec (.ldReg x y) s = .next t ∧ t.reg x = s.reg y ∧ SameRegsExcept [x] s t ∧ SameExcept [.v] s t)

/-- 41_register_alu.md R104, R105, R106: the result from the old registers, VF 0 always, VF last when x is 15. -/
def Obligations.LogicInstructionsClearVF : Prop :=
  ∀ (s : State) (x y : Reg),
    (∃ t, exec (.or x y) s = .next t ∧ (x ≠ vf → t.reg x = s.reg x ||| s.reg y) ∧ t.reg vf = 0 ∧
      SameRegsExcept [x, vf] s t ∧ SameExcept [.v] s t) ∧
    (∃ t, exec (.and x y) s = .next t ∧ (x ≠ vf → t.reg x = s.reg x &&& s.reg y) ∧ t.reg vf = 0 ∧
      SameRegsExcept [x, vf] s t ∧ SameExcept [.v] s t) ∧
    (∃ t, exec (.xor x y) s = .next t ∧ (x ≠ vf → t.reg x = s.reg x ^^^ s.reg y) ∧ t.reg vf = 0 ∧
      SameRegsExcept [x, vf] s t ∧ SameExcept [.v] s t)

/-- ADD_REG for every x and y: the sum mod 256 unless x is 15, VF the carry of the old registers
(41_register_alu.md R107; the outcomes at x = 15 and y = 15 are the spec's decision D6, log 11). -/
def Obligations.AddRegWritesSumThenCarry : Prop :=
  ∀ (s : State) (x y : Reg), ∃ t, exec (.addReg x y) s = .next t ∧
    (x ≠ vf → (t.reg x).toNat = ((s.reg x).toNat + (s.reg y).toNat) % 256) ∧
    t.reg vf = (if (s.reg x).toNat + (s.reg y).toNat > 255 then 1 else 0) ∧
    SameRegsExcept [x, vf] s t ∧ SameExcept [.v] s t

/-- SUB for every x and y, with `a`, `b`, `f` the old Vx, Vy, VF (41_register_alu.md R108; the outcomes at
x = 15 and y = 15 are the spec's decision D6, log 11). -/
def Obligations.SubWritesFlagThenDifference : Prop :=
  ∀ (s : State) (x y : Reg) (a b f : Nat),
    a = (s.reg x).toNat → b = (s.reg y).toNat → f = (s.reg vf).toNat →
    ∃ t, exec (.sub x y) s = .next t ∧ SameRegsExcept [x, vf] s t ∧ SameExcept [.v] s t ∧
      (x ≠ vf → y ≠ vf → (t.reg vf).toNat = (if a ≥ b then 1 else 0) ∧ (t.reg x).toNat = (a + 256 - b) % 256) ∧
      (x ≠ vf → y = vf → (t.reg vf).toNat = (if a ≥ f then 1 else 0) ∧
        (t.reg x).toNat = (a + 256 - (if a ≥ f then 1 else 0)) % 256) ∧
      (x = vf → y ≠ vf → (t.reg vf).toNat = ((if f ≥ b then 1 else 0) + 256 - b) % 256) ∧
      (x = vf → y = vf → (t.reg vf).toNat = 0)

/-- SUBN for every x and y, with `a`, `b`, `f` the old Vx, Vy, VF (41_register_alu.md R110; the outcomes at
x = 15 and y = 15 are the spec's decision D6, log 11). -/
def Obligations.SubnWritesFlagThenReverseDifference : Prop :=
  ∀ (s : State) (x y : Reg) (a b f : Nat),
    a = (s.reg x).toNat → b = (s.reg y).toNat → f = (s.reg vf).toNat →
    ∃ t, exec (.subn x y) s = .next t ∧ SameRegsExcept [x, vf] s t ∧ SameExcept [.v] s t ∧
      (x ≠ vf → y ≠ vf → (t.reg vf).toNat = (if b ≥ a then 1 else 0) ∧ (t.reg x).toNat = (b + 256 - a) % 256) ∧
      (x ≠ vf → y = vf → (t.reg vf).toNat = (if f ≥ a then 1 else 0) ∧
        (t.reg x).toNat = ((if f ≥ a then 1 else 0) + 256 - a) % 256) ∧
      (x = vf → y ≠ vf → (t.reg vf).toNat = (b + 256 - (if b ≥ f then 1 else 0)) % 256) ∧
      (x = vf → y = vf → (t.reg vf).toNat = 0)

/-- SHR and SHL for every x and y; no register but Vx decides the result (41_register_alu.md R109, R111; the
outcomes at x = 15 are the spec's decision D6, log 11). -/
def Obligations.ShiftsWriteTheBitShiftedOutThenVx : Prop :=
  ∀ (s : State) (x y : Reg),
    (∃ t, exec (.shr x y) s = .next t ∧ SameRegsExcept [x, vf] s t ∧ SameExcept [.v] s t ∧
      (x ≠ vf → (t.reg vf).toNat = (s.reg x).toNat % 2 ∧ (t.reg x).toNat = (s.reg x).toNat / 2) ∧
      (x = vf → (t.reg vf).toNat = 0)) ∧
    (∃ t, exec (.shl x y) s = .next t ∧ SameRegsExcept [x, vf] s t ∧ SameExcept [.v] s t ∧
      (x ≠ vf → (t.reg vf).toNat = (s.reg x).toNat / 128 ∧ (t.reg x).toNat = (s.reg x).toNat * 2 % 256) ∧
      (x = vf → (t.reg vf).toNat = 2 * ((s.reg vf).toNat / 128)))

/-- The table of 10_state.md R32: what each flag-writing instruction leaves in VF when its x field is not 15, and
that ADD_IMM and ADD_INDEX write no flag. For y = 15 the table refers to 41_register_alu.md R100: there the old
VF is the operand, the spec's decision D6 (log 11). -/
def Obligations.FlagTableOfVF : Prop :=
  ∀ (s : State) (x y : Reg) (n : Fin 16) (kk : Byte), x ≠ vf →
    (∃ t, exec (.or x y) s = .next t ∧ t.reg vf = 0) ∧
    (∃ t, exec (.and x y) s = .next t ∧ t.reg vf = 0) ∧
    (∃ t, exec (.xor x y) s = .next t ∧ t.reg vf = 0) ∧
    (∃ t, exec (.addReg x y) s = .next t ∧
      t.reg vf = (if (s.reg x).toNat + (s.reg y).toNat > 255 then 1 else 0)) ∧
    (∃ t, exec (.sub x y) s = .next t ∧ t.reg vf = (if (s.reg x).toNat ≥ (s.reg y).toNat then 1 else 0)) ∧
    (∃ t, exec (.subn x y) s = .next t ∧ t.reg vf = (if (s.reg y).toNat ≥ (s.reg x).toNat then 1 else 0)) ∧
    (∃ t, exec (.shr x y) s = .next t ∧ (t.reg vf).toNat = (s.reg x).toNat % 2) ∧
    (∃ t, exec (.shl x y) s = .next t ∧ (t.reg vf).toNat = (s.reg x).toNat / 128) ∧
    (∃ t, exec (.drw x y n) s = .next t ∧
      ((∃ r c, s.fb.pixel r c = true ∧ t.fb.pixel r c = false) → t.reg vf = 1) ∧
      ((∀ r c, s.fb.pixel r c = true → t.fb.pixel r c = true) → t.reg vf = 0)) ∧
    (∃ t, exec (.addImm x kk) s = .next t ∧ t.reg vf = s.reg vf) ∧
    (∃ t, exec (.addIndex x) s = .next t ∧ t.reg vf = s.reg vf)

/-- RND leaves the drawn byte under its mask, and no bit outside the mask, whatever byte is drawn; the next RND
draws the next byte (41_register_alu.md R112; the draw is a free value, R114, the spec's decision D23, log 3). -/
def Obligations.RndWritesTheDrawUnderItsMask : Prop :=
  ∀ (s : State) (x : Reg) (kk : Byte), ∃ t, exec (.rnd x kk) s = .next t ∧
    t.reg x = Config.drawByte s.draws &&& kk ∧ t.reg x &&& ~~~kk = 0 ∧ t.draws = s.draws + 1 ∧
    SameRegsExcept [x] s t ∧ SameExcept [.v, .draws] s t

/-! ### Index register and memory (42_index_memory.md, 20_memory.md) -/

/-- 42_index_memory.md R120, R121, R122. -/
def Obligations.IndexInstructionsWriteIAlone : Prop :=
  ∀ (s : State) (x : Reg) (nnn : Addr),
    (∃ t, exec (.ldIndex nnn) s = .next t ∧ t.i = nnn ∧ SameExcept [.i] s t) ∧
    (∃ t, exec (.addIndex x) s = .next t ∧ t.i.toNat = (s.i.toNat + (s.reg x).toNat) % 4096 ∧
      SameExcept [.i] s t) ∧
    (∃ t, exec (.ldFont x) s = .next t ∧ t.i.toNat = (s.reg x).toNat * 5 ∧ SameExcept [.i] s t)

/-- LD_BCD: three digits at I, I + 1, I + 2, each address wrapping by itself; nothing else (42_index_memory.md
R123). That a store to the font region takes effect is the spec's decision D17 (log 18). -/
def Obligations.BcdStoresThreeDecimalDigits : Prop :=
  ∀ (s : State) (x : Reg), ∃ t, exec (.ldBcd x) s = .next t ∧
    (t.mem.read s.i).toNat = (s.reg x).toNat / 100 ∧
    (t.mem.read (s.i + 1)).toNat = (s.reg x).toNat / 10 % 10 ∧
    (t.mem.read (s.i + 2)).toNat = (s.reg x).toNat % 10 ∧
    (∀ a, a ≠ s.i → a ≠ s.i + 1 → a ≠ s.i + 2 → t.mem.read a = s.mem.read a) ∧
    SameExcept [.mem] s t

/-- ST_REGS: V0 to Vx at I on, each address wrapping by itself, then I past them (42_index_memory.md R124; the
reduction of I mod 4096 is derived there from 10_state.md R13, log 24; that a store to the font region takes
effect is the spec's decision D17, log 18). -/
def Obligations.StoreRegistersStoresV0ToVx : Prop :=
  ∀ (s : State) (x : Reg), ∃ t, exec (.stRegs x) s = .next t ∧
    (∀ k : Reg, k ≤ x → t.mem.read (s.indexAddr k.val) = s.reg k) ∧
    (∀ a : Addr, (∀ k : Reg, k ≤ x → a ≠ s.indexAddr k.val) → t.mem.read a = s.mem.read a) ∧
    t.i.toNat = (s.i.toNat + x.val + 1) % 4096 ∧
    SameExcept [.mem, .i] s t

/-- LD_REGS: V0 to Vx from I on, registers above Vx untouched, then I past them (42_index_memory.md R125; the
reduction of I mod 4096 as for ST_REGS, log 24). -/
def Obligations.LoadRegistersLoadsV0ToVx : Prop :=
  ∀ (s : State) (x : Reg), ∃ t, exec (.ldRegs x) s = .next t ∧
    (∀ k : Reg, k ≤ x → t.reg k = s.mem.read (s.indexAddr k.val)) ∧
    (∀ k : Reg, x < k → t.reg k = s.reg k) ∧
    t.i.toNat = (s.i.toNat + x.val + 1) % 4096 ∧
    SameExcept [.v, .i] s t

/-- Registers stored by ST_REGS and loaded back by LD_REGS from the same address come back, and I moves by x + 1
each time (42_index_memory.md R124, R125, the source's round trip property; log 24; that a store to the font
region takes effect is the spec's decision D17, log 18). -/
def Obligations.StoredRegistersLoadBack : Prop :=
  ∀ (s t u : State) (x : Reg), exec (.stRegs x) s = .next t →
    u.i = s.i → (∀ a, u.mem.read a = t.mem.read a) →
    ∃ w, exec (.ldRegs x) u = .next w ∧ (∀ k : Reg, k ≤ x → w.reg k = s.reg k) ∧
      t.i = s.i + BitVec.ofNat 12 (x.val + 1) ∧ w.i = s.i + BitVec.ofNat 12 (x.val + 1)

/-- A read returns the latest earlier write to its address, or what construct left there if there was none, whatever
the FONT (20_memory.md R50; stores to every address take effect, the spec's decision D17, log 18). -/
def Obligations.MemoryReadsTheLatestWrite : Prop :=
  ∀ (font : Config.Font) (ws : List (Addr × Byte)) (a : Addr),
    Memory.read (ws.foldl (fun m w => m.write w.1 w.2) (State.fresh font).mem) a =
      ((ws.reverse.find? (fun w => w.1 = a)).map Prod.snd).getD ((State.fresh font).mem.read a)

/-- A byte stored by ST_REGS or LD_BCD is seen by the very next fetch of its address, whichever byte of the block it
is: as the high byte of the opcode fetched at its own address and as the low byte of the one fetched an address
before (20_memory.md R52; first byte high is the spec's decision D2, log 10; that a store to the font region
takes effect is D17, log 18). -/
def Obligations.AStoreIsSeenByTheNextFetch : Prop :=
  ∀ (s t : State) (x : Reg),
    (exec (.stRegs x) s = .next t → ∀ k : Reg, k ≤ x →
      (State.fetchOpcode { t with pc := s.indexAddr k.val }).extractLsb' 8 8 = s.reg k ∧
      (State.fetchOpcode { t with pc := s.indexAddr k.val - 1 }).extractLsb' 0 8 = s.reg k) ∧
    (exec (.ldBcd x) s = .next t → ∀ (k : Nat) (d : Byte),
      [s.reg x / 100, s.reg x / 10 % 10, s.reg x % 10][k]? = some d →
      (State.fetchOpcode { t with pc := s.indexAddr k }).extractLsb' 8 8 = d ∧
      (State.fetchOpcode { t with pc := s.indexAddr k - 1 }).extractLsb' 0 8 = d)

/-! ### Control transfer (40_control_flow.md) -/

/-- 40_control_flow.md R85, R87, and R85's idle loop: a JP to its own address leaves the whole state unchanged. -/
def Obligations.JumpsSetPc : Prop :=
  (∀ (s : State) (nnn : Addr),
    (∃ t, exec (.jp nnn) s = .next t ∧ t.pc = nnn ∧ SameExcept [.pc] s t) ∧
    (∃ t, exec (.jpV0 nnn) s = .next t ∧ t.pc.toNat = (nnn.toNat + (s.reg 0).toNat) % 4096 ∧
      SameExcept [.pc] s t)) ∧
  (∀ s : State, s.Idle → step s = .next s)

/-- CALL below full depth pushes the address after it and jumps (40_control_flow.md R86; the depth 16 is the
spec's decision D3, log 14). -/
def Obligations.CallPushesTheReturnAddress : Prop :=
  ∀ (s : State) (nnn : Addr), s.stack.length < 16 →
    ∃ t, exec (.call nnn) s = .next t ∧ t.pc = nnn ∧ t.stack = s.stack ++ [s.pc] ∧ SameExcept [.pc, .stack] s t

/-- RET pops the last pushed address into PC; on an empty STACK the step faults with StackUnderflow(0x00EE, pc0) and
nothing changes (40_control_flow.md R84, 60_exceptions.md R183; that the fault carries the opcode and pc0 is the spec's
decision D24, log 20). -/
def Obligations.RetPopsTheReturnAddress : Prop :=
  (∀ (s : State) (below : List Addr) (a : Addr), s.stack = below ++ [a] →
    ∃ t, exec .ret s = .next t ∧ t.pc = a ∧ t.stack = below ∧ SameExcept [.pc, .stack] s t) ∧
  (∀ (s : State) (font : Config.Font), s.status = .running → s.fetchOpcode = 0x00EE → s.stack = [] →
    s.deliver font .step = (s, .fault (.stackUnderflow 0x00EE s.pc)))

/-- CALL then RET comes back to the address after the CALL with STACK as it was (40_control_flow.md R84, R86,
10_state.md R21: last in, first out; the depth 16 is the spec's decision D3, log 14). -/
def Obligations.RetAfterCallComesBack : Prop :=
  ∀ (s : State) (nnn : Addr), s.stack.length < 16 →
    ∃ t u, exec (.call nnn) s = .next t ∧ exec .ret t = .next u ∧ SameExcept [] s u

/-- 40_control_flow.md R88, R89, R90, R91: a taken skip adds 2 to PC, mod 4096. -/
def Obligations.CompareSkipsAddTwoToPc : Prop :=
  ∀ (s : State) (x y : Reg) (kk : Byte),
    (∃ t, exec (.seImm x kk) s = .next t ∧ SameExcept [.pc] s t ∧
      t.pc.toNat = if s.reg x = kk then (s.pc.toNat + 2) % 4096 else s.pc.toNat) ∧
    (∃ t, exec (.sneImm x kk) s = .next t ∧ SameExcept [.pc] s t ∧
      t.pc.toNat = if s.reg x ≠ kk then (s.pc.toNat + 2) % 4096 else s.pc.toNat) ∧
    (∃ t, exec (.seReg x y) s = .next t ∧ SameExcept [.pc] s t ∧
      t.pc.toNat = if s.reg x = s.reg y then (s.pc.toNat + 2) % 4096 else s.pc.toNat) ∧
    (∃ t, exec (.sneReg x y) s = .next t ∧ SameExcept [.pc] s t ∧
      t.pc.toNat = if s.reg x ≠ s.reg y then (s.pc.toNat + 2) % 4096 else s.pc.toNat)

/-! ### Display (43_display.md) -/

/-- CLS sets every pixel to 0 (43_display.md R141) and DRAW to 1 (R145, the spec's decision D7, log 15). -/
def Obligations.ClsClearsEveryPixel : Prop :=
  ∀ s : State, ∃ t, exec .cls s = .next t ∧ (∀ r c, t.fb.pixel r c = false) ∧ t.draw = true ∧
    SameExcept [.fb, .draw] s t

/-- 43_display.md R142: a set sprite bit toggles its pixel, each pixel's column and row reduced by itself; a 0 bit
touches nothing; the collision bit is 1 exactly when some set bit met a 1. -/
def Obligations.DrawSpriteTogglesExactlyItsPixels : Prop :=
  ∀ (x0 y0 : Nat) (rows : List Byte) (f : Framebuffer), rows.length ≤ 15 →
    (∀ r c, SpriteCovers x0 y0 rows r c → (drawSprite x0 y0 rows f).fb.pixel r c = !f.pixel r c) ∧
    (∀ r c, ¬ SpriteCovers x0 y0 rows r c → (drawSprite x0 y0 rows f).fb.pixel r c = f.pixel r c) ∧
    ((drawSprite x0 y0 rows f).hit = true ↔ ∃ r c, SpriteCovers x0 y0 rows r c ∧ f.pixel r c = true)

/-- Only `x0 mod 64` and `y0 mod 32` matter (43_display.md R144 (e), derived there from R142). -/
def Obligations.SpriteCoordinatesWrap : Prop :=
  ∀ (x0 y0 : Nat) (rows : List Byte) (f : Framebuffer),
    drawSprite x0 y0 rows f = drawSprite (x0 % 64) (y0 % 32) rows f

/-- Drawing the same rows twice restores the framebuffer, and the second draw collides exactly when the first
turned a pixel on (43_display.md R144 (b) and (c), derived there from R142). -/
def Obligations.DrawingTwiceRestoresTheFramebuffer : Prop :=
  ∀ (x0 y0 : Nat) (rows : List Byte) (f : Framebuffer), rows.length ≤ 15 →
    (drawSprite x0 y0 rows (drawSprite x0 y0 rows f).fb).fb = f ∧
    ((drawSprite x0 y0 rows (drawSprite x0 y0 rows f).fb).hit = true ↔
      ∃ r c, SpriteCovers x0 y0 rows r c ∧ f.pixel r c = false)

/-- DRW: the `n` bytes at I drawn at (Vx, Vy), VF the collision bit, DRAW set, nothing else, for every x, y and n,
0 included (43_display.md R143, R146; n = 0 is the spec's decision D19, log 19). -/
def Obligations.DrwDrawsTheSpriteAtI : Prop :=
  ∀ (s : State) (x y : Reg) (n : Fin 16) (rows : List Byte),
    rows = (List.range n.val).map (fun k => s.mem.read (s.indexAddr k)) →
    ∃ t, exec (.drw x y n) s = .next t ∧
      (∀ r c, SpriteCovers (s.reg x).toNat (s.reg y).toNat rows r c → t.fb.pixel r c = !s.fb.pixel r c) ∧
      (∀ r c, ¬ SpriteCovers (s.reg x).toNat (s.reg y).toNat rows r c → t.fb.pixel r c = s.fb.pixel r c) ∧
      ((∃ r c, SpriteCovers (s.reg x).toNat (s.reg y).toNat rows r c ∧ s.fb.pixel r c = true) → t.reg vf = 1) ∧
      ((∀ r c, SpriteCovers (s.reg x).toNat (s.reg y).toNat rows r c → s.fb.pixel r c = false) → t.reg vf = 0) ∧
      t.draw = true ∧ SameRegsExcept [vf] s t ∧ SameExcept [.v, .fb, .draw] s t

/-! ### Keypad and timers (44_keypad_timer.md, 60_exceptions.md) -/

/-- SKP and SKNP test the flag of the key in the low nibble of Vx (44_keypad_timer.md R161, R162; the low nibble
is the spec's decision D13, log 12). -/
def Obligations.KeySkipsTestTheKeyOfVx : Prop :=
  ∀ (s : State) (x : Reg) (k : Key), k.val = (s.reg x).toNat % 16 →
    (∃ t, exec (.skp x) s = .next t ∧ SameExcept [.pc] s t ∧
      t.pc.toNat = if s.keyDown k = true then (s.pc.toNat + 2) % 4096 else s.pc.toNat) ∧
    (∃ t, exec (.sknp x) s = .next t ∧ SameExcept [.pc] s t ∧
      t.pc.toNat = if s.keyDown k = false then (s.pc.toNat + 2) % 4096 else s.pc.toNat)

/-- LD_VX_KEY begins the wait and does no more (44_keypad_timer.md R164, the spec's decision D11, log 13). -/
def Obligations.LdVxKeyBeginsTheWait : Prop :=
  ∀ (s : State) (x : Reg), ∃ t, exec (.ldVxKey x) s = .next t ∧ t.status = .awaitingKey x ∧ t.lastKey = none ∧
    SameExcept [.status, .lastKey] s t

/-- A key wait outlasts every schedule without a press, construct or reset, changing no register, and the first
press then loads its index into the waiting register and runs the machine again (44_keypad_timer.md R164,
60_exceptions.md R195, the spec's decision D11, log 13). That a step in the wait changes nothing is the spec's
decision D12 (log 6), that a loadRom leaves the registers and the wait as they were D16 (log 16). -/
def Obligations.AKeyWaitLastsUntilAPress : Prop :=
  ∀ (s : State) (font : Config.Font) (x : Reg) (es : List Event) (k : Key), s.status = .awaitingKey x →
    (∀ j, Event.press j ∉ es) → Event.construct ∉ es → Event.reset ∉ es →
    (s.runSchedule font es).status = .awaitingKey x ∧
    SameRegsExcept [] s (s.runSchedule font es) ∧
    ((∀ bytes, Event.loadRom bytes ∉ es) → (s.runSchedule font es).pc = s.pc) ∧
    (s.runSchedule font (es ++ [.press k])).status = .running ∧
    ((s.runSchedule font (es ++ [.press k])).reg x).toNat = k.val ∧
    SameRegsExcept [x] s (s.runSchedule font (es ++ [.press k]))

/-- STATUS, as the host observes it after each event (log 25), becomes AwaitingKey(x) only by executing LD_VX_KEY,
becomes Running again only by a press, construct or reset, and a step in between changes nothing (10_state.md
R29). That a release does not end the wait is the spec's decision D11 (log 13), that a loadRom does not is D16
(log 16), that a step in it changes nothing D12 (log 6). -/
def Obligations.StatusChangesOnlyAsTheSpecSays : Prop :=
  ∀ (s : State) (font : Config.Font) (e : Event) (x : Reg),
    ((s.report font e).status = .awaitingKey x →
      s.status = .awaitingKey x ∨ (e = .step ∧ s.nextInstr = some (.ldVxKey x))) ∧
    (s.status = .awaitingKey x → (s.report font e).status = .running →
      (∃ k, e = .press k) ∨ e = .construct ∨ e = .reset) ∧
    (s.status = .awaitingKey x → (s.deliver font .step).1 = s ∧ s.report font .step = ⟨.waiting, .awaitingKey x⟩) ∧
    (s.report font e).status = (s.deliver font e).1.status

/-- LD_VX_DT and LD_DT_VX (44_keypad_timer.md R165, R166), and LD_ST_VX's store (R167). -/
def Obligations.TimerInstructionsMoveOneByte : Prop :=
  ∀ (s : State) (x : Reg),
    (∃ t, exec (.ldVxDt x) s = .next t ∧ t.reg x = s.dt ∧ SameRegsExcept [x] s t ∧ SameExcept [.v] s t) ∧
    (∃ t, exec (.ldDtVx x) s = .next t ∧ t.dt = s.reg x ∧ SameExcept [.dt] s t) ∧
    (∃ t, exec (.ldStVx x) s = .next t ∧ t.st = s.reg x ∧ SameExcept [.st] s t)

/-- Steps never count a timer: over any number of steps that run no LD_DT_VX (no LD_ST_VX), DT (ST) stays as it was
(44_keypad_timer.md R163). A run may pass into a key wait, whose steps change nothing (the spec's decision D12,
log 6). -/
def Obligations.StepsNeverCountATimer : Prop :=
  ∀ (n : Nat) (s t : State), Host.Core.run core n s = .next t →
    ((∀ k < n, ∀ u, Host.Core.run core k s = .next u → ∀ x, u.nextInstr ≠ some (.ldDtVx x)) → t.dt = s.dt) ∧
    ((∀ k < n, ∀ u, Host.Core.run core k s = .next u → ∀ x, u.nextInstr ≠ some (.ldStVx x)) → t.st = s.st)

/-- 60_exceptions.md R190: a tick, in any STATUS, counts each nonzero timer down by one, asks for a tone exactly
when ST goes from 1 to 0, and changes nothing else. -/
def Obligations.TickCountsTheTimersDown : Prop :=
  ∀ (s : State) (font : Config.Font), ∃ t r, s.deliver font .tick60 = (t, r) ∧
    t.dt.toNat = s.dt.toNat - 1 ∧ t.st.toNat = s.st.toNat - 1 ∧
    (s.st = 1 → r = .toneRequest) ∧ (s.st ≠ 1 → r = .done) ∧ SameExcept [.dt, .st] s t

/-- Over `n` ticks each timer loses `n`, clamped at 0, and ST's countdown asks for one tone, on the tick it expires
at, and none otherwise (60_exceptions.md R190, R192; the tone's place is the spec's decision D14, log 17). -/
def Obligations.TicksCountDownAndAskForOneTone : Prop :=
  ∀ (s : State) (font : Config.Font) (n : Nat),
    (s.runSchedule font (List.replicate n .tick60)).dt.toNat = s.dt.toNat - n ∧
    (s.runSchedule font (List.replicate n .tick60)).st.toNat = s.st.toNat - n ∧
    ((s.reports font (List.replicate n .tick60)).map Report.response).count .toneRequest =
      (if 0 < s.st.toNat ∧ s.st.toNat ≤ n then 1 else 0)

/-- A tone is asked for by no event but a tick that takes ST from 1 to 0 (60_exceptions.md R192; that a store to ST
is no expiry is the spec's decision D14, log 17). -/
def Obligations.ATonesOnlyCauseIsTheExpiryOfST : Prop :=
  ∀ (s : State) (font : Config.Font) (e : Event), (s.deliver font e).2 = .toneRequest ↔ e = .tick60 ∧ s.st = 1

/-- A press sets its flag and LASTKEY, and in a key wait also loads the waiting register and ends the wait
(60_exceptions.md R195, the spec's decision D11, log 13). -/
def Obligations.PressSetsItsKeyAndEndsAWait : Prop :=
  ∀ (s : State) (font : Config.Font) (k : Key), ∃ t, s.deliver font (.press k) = (t, .done) ∧
    t.keyDown k = true ∧ (∀ j, j ≠ k → t.keyDown j = s.keyDown j) ∧ t.lastKey = some k ∧ t.status = .running ∧
    (s.status = .running → SameExcept [.key, .lastKey] s t) ∧
    (∀ x, s.status = .awaitingKey x → (t.reg x).toNat = k.val ∧ SameRegsExcept [x] s t ∧
      SameExcept [.key, .lastKey, .v, .status] s t)

/-- A release clears its flag and changes nothing else (60_exceptions.md R196). That it leaves a key wait on is the
spec's decision D11 (log 13). -/
def Obligations.ReleaseClearsItsKeyAlone : Prop :=
  ∀ (s : State) (font : Config.Font) (k : Key), ∃ t, s.deliver font (.release k) = (t, .done) ∧
    t.keyDown k = false ∧ (∀ j, j ≠ k → t.keyDown j = s.keyDown j) ∧ SameExcept [.key] s t

/-- 60_exceptions.md R199, R200: the renderer reads the 2048 pixels row-major and changes nothing; it takes DRAW and
clears it. -/
def Obligations.TheRendererReadsPixelsAndTakesDraw : Prop :=
  ∀ (s : State) (font : Config.Font),
    (∃ p, s.deliver font .readFramebuffer = (s, .pixels p) ∧ p.length = 2048 ∧
      ∀ (r : Fin 32) (c : Fin 64), p[r.val * 64 + c.val]? = some (s.fb.pixel r c)) ∧
    (∃ t, s.deliver font .takeDrawFlag = (t, .drawFlag s.draw) ∧ t.draw = false ∧ SameExcept [.draw] s t)

/-! ### Lifecycle (70_reset_and_hazards.md) -/

/-- The state after construct, for every FONT, and the state the model starts in, which has the default FONT
(10_state.md R33, 70_reset_and_hazards.md R210; the zeros other than MEM are the spec's decision D4, log 2; FONT
is an argument, D5, log 1; ROMIMG is empty). -/
def Obligations.ConstructGivesTheResetValues : Prop :=
  ∀ (s t : State) (font : Config.Font),
    (t = State.reset ∧ font = Config.font) ∨ t = State.fresh font ∨ t = (s.deliver font .construct).1 →
    (∀ r, t.reg r = 0) ∧ t.i = 0 ∧ t.pc = 0x200 ∧ t.stack = [] ∧ t.dt = 0 ∧ t.st = 0 ∧
    (∀ a : Addr, t.mem.read a = if a.toNat < 0x50 then font.toList.getD a.toNat 0 else 0) ∧
    (∀ r c, t.fb.pixel r c = false) ∧ t.draw = false ∧ (∀ k, t.keyDown k = false) ∧ t.lastKey = none ∧
    t.status = .running ∧ t.romImg = []

/-- 20_memory.md R48: the map of MEM after construct and loadRom: font, zero, the program byte for byte, zero, for
every FONT (an argument, the spec's decision D5, log 1). -/
def Obligations.MemoryMapAfterLoad : Prop :=
  ∀ (s : State) (font : Config.Font) (rom : List Byte) (a : Addr), rom.length ≤ 3584 →
    (s.runSchedule font [.construct, .loadRom rom]).mem.read a =
      if a.toNat < 0x50 then font.toList.getD a.toNat 0
      else if a.toNat < 0x200 then 0
      else if a.toNat < 0x200 + rom.length then rom.getD (a.toNat - 0x200) 0
      else 0

/-- A load that fits copies its bytes, sets PC, remembers the image and changes nothing else
(70_reset_and_hazards.md R211, the spec's decision D16, log 16). -/
def Obligations.LoadRomCopiesTheProgramAlone : Prop :=
  ∀ (s : State) (font : Config.Font) (rom : List Byte), rom.length ≤ 3584 →
    ∃ t, s.deliver font (.loadRom rom) = (t, .done) ∧
      (∀ (j : Nat) (b : Byte), rom[j]? = some b → t.mem.read (BitVec.ofNat 12 (0x200 + j)) = b) ∧
      (∀ a : Addr, a.toNat < 0x200 ∨ 0x200 + rom.length ≤ a.toNat → t.mem.read a = s.mem.read a) ∧
      t.pc = 0x200 ∧ t.romImg = rom ∧ SameExcept [.mem, .pc, .romImg] s t

/-- 70_reset_and_hazards.md R212, 60_exceptions.md R185: a longer image changes nothing; exactly 3584 bytes succeed
and fill 0x200 to 0xFFF. -/
def Obligations.ATooLongRomChangesNothing : Prop :=
  ∀ (s : State) (font : Config.Font) (rom : List Byte),
    (rom.length > 3584 → s.deliver font (.loadRom rom) = (s, .fault (.romTooLarge rom.length))) ∧
    (rom.length = 3584 → ∃ t, s.deliver font (.loadRom rom) = (t, .done) ∧
      ∀ a : Addr, 0x200 ≤ a.toNat → rom[a.toNat - 0x200]? = some (t.mem.read a))

/-- From every state reset gives the construct values with the remembered image copied back and kept, so also before
any load (70_reset_and_hazards.md R213, the spec's decisions D15 and D26, log 16; the zeros are D4, log 2); the
image is kept by every event but construct and loadRom; so, whatever ran since the load, reset gives back
exactly the freshly loaded machine. Only the model's draw counter goes on (log 4). The bound on ROMIMG's
length holds in every state that satisfies the invariant. -/
def Obligations.ResetGivesBackTheLoadedMachine : Prop :=
  ∀ (s : State) (font : Config.Font),
    (∃ t, s.deliver font .reset = (t, .done) ∧ t.romImg = s.romImg ∧
      (∀ r, t.reg r = 0) ∧ t.i = 0 ∧ t.pc = 0x200 ∧ t.stack = [] ∧ t.dt = 0 ∧ t.st = 0 ∧
      (∀ r c, t.fb.pixel r c = false) ∧ t.draw = false ∧ (∀ k, t.keyDown k = false) ∧ t.lastKey = none ∧
      t.status = .running ∧
      (s.romImg.length ≤ 3584 → ∀ a : Addr, t.mem.read a =
        if a.toNat < 0x50 then font.toList.getD a.toNat 0
        else if a.toNat < 0x200 then 0
        else s.romImg.getD (a.toNat - 0x200) 0)) ∧
    (∀ e : Event, e ≠ .construct → (∀ bytes, e ≠ .loadRom bytes) → (s.deliver font e).1.romImg = s.romImg) ∧
    (∀ (rom : List Byte) (es : List Event), rom.length ≤ 3584 →
      Event.construct ∉ es → (∀ bytes, Event.loadRom bytes ∉ es) →
      ∃ n, s.runSchedule font (.construct :: .loadRom rom :: es ++ [.reset]) =
        { s.runSchedule font [.construct, .loadRom rom] with draws := n })

/-! ### Faults and the host interface (60_exceptions.md) -/

/-- An event that ends in a fault leaves every piece of state as it was (60_exceptions.md R181, the spec's decision
D8, log 7). -/
def Obligations.AFaultLeavesEverythingUnchanged : Prop :=
  ∀ (s : State) (font : Config.Font) (e : Event) (f : Fault),
    (s.deliver font e).2 = .fault f → (s.deliver font e).1 = s

/-- Nothing is latched: after a fault every further step raises the same fault again and the state stays
(60_exceptions.md R188, the spec's decision D25, log 7). -/
def Obligations.AFaultRepeats : Prop :=
  ∀ (s : State) (font : Config.Font) (f : Fault) (n : Nat), (s.deliver font .step).2 = .fault f →
    s.runSchedule font (List.replicate n .step) = s ∧
    (s.reports font (List.replicate n .step)).map Report.response = List.replicate n (.fault f)

/-- Each event writes only the pieces of state its rule names; in particular KEY is written by no step, and PC by no
tick, press or release (10_state.md R26, R28, R30, 60_exceptions.md R189, R203). What a loadRom leaves is the
spec's decision D16 (log 16), that a release leaves STATUS D11 (log 13); that construct and reset keep draws,
the model's own field, is the model's choice (log 4). -/
def Obligations.EveryEventWritesOnlyWhatItsRuleNames : Prop :=
  ∀ (s : State) (font : Config.Font) (e : Event), SameExcept e.mayWrite s (s.deliver font e).1

/-- No instruction reads DRAW, LASTKEY, ROMIMG or ST, and none but SKP and SKNP reads KEY: two machines that differ
only there do the same and differ only there afterwards (10_state.md R22, R26, R27, R28, R30). That LD_VX_KEY
looks neither at keys already down nor at LASTKEY is the spec's decision D11 (log 13), that a step in a key wait
does nothing D12 (log 6). -/
def Obligations.HiddenStateNeverDecidesAStep : Prop :=
  ∀ (s : State) (d : Bool) (l : Option Key) (m : List Byte) (b : Byte) (k : Vector Bool 16),
    (k = s.key ∨ ∀ x, s.nextInstr ≠ some (.skp x) ∧ s.nextInstr ≠ some (.sknp x)) →
    match step s with
    | .next t => ∃ u, step { s with draw := d, lastKey := l, romImg := m, st := b, key := k } = .next u ∧
        SameExcept [.draw, .lastKey, .romImg, .st, .key] t u
    | .fault f => step { s with draw := d, lastKey := l, romImg := m, st := b, key := k } = .fault f
    | .refused _ => False
end

