-- ==== Sys2Proof/Laws/Encoding.lean ====
section
/-! SUPPORT. The fields of an opcode built by each format (30_encoding.md R61, R62). -/

namespace Sys2Proof

@[simp] theorem toNat_nibble (a : Fin 16) : (nibble a).toNat = a.val := rfl

theorem toNat_formatNnn (f : Fin 16) (nnn : Addr) : (formatNnn f nnn).toNat = f.val * 4096 + nnn.toNat := by
  simp only [formatNnn, BitVec.toNat_append, toNat_nibble]
  rw [← Nat.shiftLeft_add_eq_or_of_lt nnn.isLt, Nat.shiftLeft_eq]

theorem toNat_formatXkk (f : Fin 16) (x : Reg) (kk : Byte) :
    (formatXkk f x kk).toNat = f.val * 4096 + x.val * 256 + kk.toNat := by
  simp only [formatXkk, BitVec.toNat_append, toNat_nibble]
  rw [← Nat.shiftLeft_add_eq_or_of_lt kk.isLt, ← Nat.shiftLeft_add_eq_or_of_lt x.isLt]
  simp only [Nat.shiftLeft_eq]
  omega

theorem toNat_formatXyn (f : Fin 16) (x y : Reg) (n : Fin 16) :
    (formatXyn f x y n).toNat = f.val * 4096 + x.val * 256 + y.val * 16 + n.val := by
  simp only [formatXyn, BitVec.toNat_append, toNat_nibble]
  rw [← Nat.shiftLeft_add_eq_or_of_lt n.isLt, ← Nat.shiftLeft_add_eq_or_of_lt y.isLt,
    ← Nat.shiftLeft_add_eq_or_of_lt x.isLt]
  simp only [Nat.shiftLeft_eq]
  omega

theorem val_family (op : Opcode) : (family op).val = op.toNat / 4096 := by
  have := op.isLt
  simp only [family, BitVec.val_toFin, BitVec.extractLsb'_toNat, Nat.shiftRight_eq_div_pow]
  omega

theorem val_fieldX (op : Opcode) : (fieldX op).val = op.toNat / 256 % 16 := by
  simp only [fieldX, BitVec.val_toFin, BitVec.extractLsb'_toNat, Nat.shiftRight_eq_div_pow]

theorem val_fieldY (op : Opcode) : (fieldY op).val = op.toNat / 16 % 16 := by
  simp only [fieldY, BitVec.val_toFin, BitVec.extractLsb'_toNat, Nat.shiftRight_eq_div_pow]

theorem val_fieldN (op : Opcode) : (fieldN op).val = op.toNat % 16 := by
  simp only [fieldN, BitVec.val_toFin, BitVec.extractLsb'_toNat, Nat.shiftRight_zero]

theorem toNat_fieldKk (op : Opcode) : (fieldKk op).toNat = op.toNat % 256 := by
  simp only [fieldKk, BitVec.extractLsb'_toNat, Nat.shiftRight_zero]

theorem toNat_fieldNnn (op : Opcode) : (fieldNnn op).toNat = op.toNat % 4096 := by
  simp only [fieldNnn, BitVec.extractLsb'_toNat, Nat.shiftRight_zero]

section nnn
variable (f : Fin 16) (nnn : Addr)

@[simp] theorem family_formatNnn : family (formatNnn f nnn) = f := by
  apply Fin.ext; rw [val_family, toNat_formatNnn]; omega

@[simp] theorem fieldNnn_formatNnn : fieldNnn (formatNnn f nnn) = nnn := by
  apply BitVec.eq_of_toNat_eq; rw [toNat_fieldNnn, toNat_formatNnn]; omega
end nnn

section xkk
variable (f : Fin 16) (x : Reg) (kk : Byte)

@[simp] theorem family_formatXkk : family (formatXkk f x kk) = f := by
  apply Fin.ext; rw [val_family, toNat_formatXkk]; omega

@[simp] theorem fieldX_formatXkk : fieldX (formatXkk f x kk) = x := by
  apply Fin.ext; rw [val_fieldX, toNat_formatXkk]; omega

@[simp] theorem fieldKk_formatXkk : fieldKk (formatXkk f x kk) = kk := by
  apply BitVec.eq_of_toNat_eq; rw [toNat_fieldKk, toNat_formatXkk]; omega
end xkk

section xyn
variable (f : Fin 16) (x y : Reg) (n : Fin 16)

@[simp] theorem family_formatXyn : family (formatXyn f x y n) = f := by
  apply Fin.ext; rw [val_family, toNat_formatXyn]; omega

@[simp] theorem fieldX_formatXyn : fieldX (formatXyn f x y n) = x := by
  apply Fin.ext; rw [val_fieldX, toNat_formatXyn]; omega

@[simp] theorem fieldY_formatXyn : fieldY (formatXyn f x y n) = y := by
  apply Fin.ext; rw [val_fieldY, toNat_formatXyn]; omega

@[simp] theorem fieldN_formatXyn : fieldN (formatXyn f x y n) = n := by
  apply Fin.ext; rw [val_fieldN, toNat_formatXyn]; omega
end xyn

/-- An opcode is the one its format builds from its own fields. -/
theorem formatNnn_fields (op : Opcode) : formatNnn (family op) (fieldNnn op) = op := by
  apply BitVec.eq_of_toNat_eq; rw [toNat_formatNnn, val_family, toNat_fieldNnn]; omega

theorem formatXkk_fields (op : Opcode) : formatXkk (family op) (fieldX op) (fieldKk op) = op := by
  apply BitVec.eq_of_toNat_eq
  have := op.isLt
  rw [toNat_formatXkk, val_family, val_fieldX, toNat_fieldKk]; omega

theorem formatXyn_fields (op : Opcode) : formatXyn (family op) (fieldX op) (fieldY op) (fieldN op) = op := by
  apply BitVec.eq_of_toNat_eq
  have := op.isLt
  rw [toNat_formatXyn, val_family, val_fieldX, val_fieldY, val_fieldN]; omega

/-- The two bytes of an opcode, put back in order, are the opcode (20_memory.md R43). -/
@[simp] theorem opcodeOfBytes_bytesOfOpcode (op : Opcode) :
    opcodeOfBytes (bytesOfOpcode op).1 (bytesOfOpcode op).2 = op := by
  apply BitVec.eq_of_toNat_eq
  have := op.isLt
  simp only [opcodeOfBytes, bytesOfOpcode, BitVec.toNat_append]
  rw [← Nat.shiftLeft_add_eq_or_of_lt (BitVec.isLt _)]
  simp only [BitVec.extractLsb'_toNat, Nat.shiftLeft_eq, Nat.shiftRight_eq_div_pow]
  omega

end Sys2Proof
end

