-- ==== Sys2Proof/Laws/Framebuffer.lean ====
section
/-! SUPPORT. The framebuffer engine: a sprite as the list of pixels it toggles, no pixel twice, and what toggling a list of pixels does (43_display.md R142, R144). -/

namespace Sys2Proof.Machine

/-! ### Pixels -/

theorem Framebuffer.pixel_setPixel (f : Framebuffer) (r r' : Fin 32) (c c' : Fin 64) (b : Bool) :
    (f.setPixel r c b).pixel r' c' = if r' = r ∧ c' = c then b else f.pixel r' c' := by
  simp only [Framebuffer.pixel, Framebuffer.setPixel, Vector.get_eq_getElem]
  by_cases hr : r' = r
  · subst hr
    by_cases hc : c' = c
    · subst hc; simp
    · have : c.val ≠ c'.val := fun e => hc (Fin.ext e.symm)
      simp [hc, this]
  · have : r.val ≠ r'.val := fun e => hr (Fin.ext e.symm)
    simp [hr, this]

/-- Two framebuffers with the same pixels are equal. -/
theorem Framebuffer.ext_pixel {f g : Framebuffer} (h : ∀ r c, f.pixel r c = g.pixel r c) : f = g := by
  apply Vector.ext
  intro r hr
  apply Vector.ext
  intro c hc
  simpa [Framebuffer.pixel, Vector.get_eq_getElem] using h ⟨r, hr⟩ ⟨c, hc⟩

@[simp] theorem Framebuffer.pixel_blank (r : Fin 32) (c : Fin 64) : Framebuffer.blank.pixel r c = false := by
  simp [Framebuffer.pixel, Framebuffer.blank, Vector.get_eq_getElem]

/-! ### A sprite as a list of pixels -/

/-- Toggle one pixel, noting a collision. -/
def Canvas.toggleAt (k : Canvas) (p : Fin 32 × Fin 64) : Canvas where
  fb := k.fb.setPixel p.1 p.2 (!k.fb.pixel p.1 p.2)
  hit := k.hit || k.fb.pixel p.1 p.2

/-- The pixels one sprite row toggles, in the order it visits them. -/
def rowPixels (x0 y : Nat) (row : Byte) : List (Fin 32 × Fin 64) :=
  ([0, 1, 2, 3, 4, 5, 6, 7].filter fun b => row.getLsbD (7 - b)).map fun b => (wrapRow y, wrapCol (x0 + b))

/-- The pixels a sprite toggles, in the order it visits them. -/
def spritePixels (x0 : Nat) : Nat → List Byte → List (Fin 32 × Fin 64)
  | _, [] => []
  | y, row :: rows => rowPixels x0 y row ++ spritePixels x0 (y + 1) rows

theorem drawRow_eq_foldl (x0 y : Nat) (row : Byte) (k : Canvas) :
    drawRow x0 y row k = (rowPixels x0 y row).foldl Canvas.toggleAt k := by
  rw [drawRow, rowPixels, List.foldl_map, List.foldl_filter]
  rfl

/-- Drawing a sprite toggles its pixels one after another. -/
theorem drawRows_eq_foldl (x0 y : Nat) (rows : List Byte) (k : Canvas) :
    drawRows x0 y rows k = (spritePixels x0 y rows).foldl Canvas.toggleAt k := by
  induction rows generalizing y k with
  | nil => rfl
  | cons row rows ih => rw [drawRows, ih, drawRow_eq_foldl, spritePixels, List.foldl_append]

theorem mem_rowPixels (x0 y : Nat) (row : Byte) (p : Fin 32 × Fin 64) :
    p ∈ rowPixels x0 y row ↔
      ∃ b < 8, row.getLsbD (7 - b) = true ∧ y % 32 = p.1.val ∧ (x0 + b) % 64 = p.2.val := by
  have h8 : ∀ b, b ∈ [0, 1, 2, 3, 4, 5, 6, 7] ↔ b < 8 := by intro b; simp; omega
  simp only [rowPixels, List.mem_map, List.mem_filter, h8, Prod.ext_iff, Fin.ext_iff, wrapRow, wrapCol, Fin.ofNat]
  exact ⟨fun ⟨b, ⟨h1, h2⟩, h3, h4⟩ => ⟨b, h1, h2, h3, h4⟩, fun ⟨b, h1, h2, h3, h4⟩ => ⟨b, ⟨h1, h2⟩, h3, h4⟩⟩

/-- The pixels of a sprite are those its set bits land on. -/
theorem mem_spritePixels (x0 y : Nat) (rows : List Byte) (p : Fin 32 × Fin 64) :
    p ∈ spritePixels x0 y rows ↔ SpriteCovers x0 y rows p.1 p.2 := by
  induction rows generalizing y with
  | nil => simp [spritePixels, SpriteCovers]
  | cons row rows ih =>
    rw [spritePixels, List.mem_append, mem_rowPixels, ih]
    constructor
    · rintro (⟨b, hb, hbit, hy, hx⟩ | ⟨j, b, r, hr, hb, hbit, hy, hx⟩)
      · exact ⟨0, b, row, by simp, hb, hbit, by simpa using hy, hx⟩
      · exact ⟨j + 1, b, r, by simpa using hr, hb, hbit, by rw [← hy]; congr 1; omega, hx⟩
    · rintro ⟨j, b, r, hr, hb, hbit, hy, hx⟩
      cases j with
      | zero =>
        simp at hr
        subst hr
        exact .inl ⟨b, hb, hbit, by simpa using hy, hx⟩
      | succ j => exact .inr ⟨j, b, r, by simpa using hr, hb, hbit, by rw [← hy]; congr 1; omega, hx⟩

theorem nodup_rowPixels (x0 y : Nat) (row : Byte) : (rowPixels x0 y row).Nodup := by
  refine List.Nodup.map_on ?_ (List.Nodup.filter _ (by decide))
  intro a ha b hb h
  have h8 : ∀ b, b ∈ [0, 1, 2, 3, 4, 5, 6, 7] → b < 8 := by intro b; simp; omega
  have ha := h8 a (List.mem_filter.1 ha).1
  have hb := h8 b (List.mem_filter.1 hb).1
  simp only [Prod.mk.injEq, wrapCol, Fin.ofNat, Fin.ext_iff] at h
  omega

/-- No pixel is visited twice by a sprite of at most 32 rows (43_display.md R144 (a)). -/
theorem nodup_spritePixels (x0 y : Nat) (rows : List Byte) (h : rows.length ≤ 32) :
    (spritePixels x0 y rows).Nodup := by
  induction rows generalizing y with
  | nil => simp [spritePixels]
  | cons row rows ih =>
    simp only [List.length_cons] at h
    rw [spritePixels, List.nodup_append]
    refine ⟨nodup_rowPixels _ _ _, ih _ (by omega), ?_⟩
    rintro p hp q hq rfl
    rw [mem_rowPixels] at hp
    rw [mem_spritePixels] at hq
    obtain ⟨_, _, _, hy, _⟩ := hp
    obtain ⟨j, _, _, hr, _, _, hy', _⟩ := hq
    obtain ⟨hj, _⟩ := List.getElem?_eq_some_iff.1 hr
    omega

/-! ### What toggling a list of different pixels does -/

theorem pixel_foldl_toggleAt (ps : List (Fin 32 × Fin 64)) (h : ps.Nodup) (k : Canvas) (r : Fin 32) (c : Fin 64) :
    (ps.foldl Canvas.toggleAt k).fb.pixel r c =
      if (r, c) ∈ ps then !k.fb.pixel r c else k.fb.pixel r c := by
  induction ps generalizing k with
  | nil => simp
  | cons p ps ih =>
    rw [List.nodup_cons] at h
    rw [List.foldl_cons, ih h.2]
    simp only [Canvas.toggleAt, Framebuffer.pixel_setPixel, List.mem_cons]
    by_cases hp : (r, c) = p
    · subst hp; simp [h.1]
    · have : ¬ (r = p.1 ∧ c = p.2) := fun e => hp (Prod.ext e.1 e.2)
      simp [hp, this]

theorem hit_foldl_toggleAt (ps : List (Fin 32 × Fin 64)) (h : ps.Nodup) (k : Canvas) :
    (ps.foldl Canvas.toggleAt k).hit = true ↔ k.hit = true ∨ ∃ p ∈ ps, k.fb.pixel p.1 p.2 = true := by
  induction ps generalizing k with
  | nil => simp
  | cons p ps ih =>
    rw [List.nodup_cons] at h
    rw [List.foldl_cons, ih h.2]
    have hrest : ∀ q ∈ ps, (k.toggleAt p).fb.pixel q.1 q.2 = k.fb.pixel q.1 q.2 := by
      intro q hq
      have hqp : q ≠ p := by rintro rfl; exact h.1 hq
      have : ¬ (q.1 = p.1 ∧ q.2 = p.2) := fun e => hqp (Prod.ext e.1 e.2)
      simp [Canvas.toggleAt, Framebuffer.pixel_setPixel, this]
    constructor
    · rintro (hh | ⟨q, hq, hpix⟩)
      · simp only [Canvas.toggleAt, Bool.or_eq_true] at hh
        rcases hh with hh | hh
        · exact .inl hh
        · exact .inr ⟨p, by simp, hh⟩
      · exact .inr ⟨q, by simp [hq], by rw [← hrest q hq]; exact hpix⟩
    · rintro (hh | ⟨q, hq, hpix⟩)
      · exact .inl (by simp [Canvas.toggleAt, hh])
      · rcases List.mem_cons.1 hq with rfl | hq
        · exact .inl (by simp [Canvas.toggleAt, hpix])
        · exact .inr ⟨q, hq, by rw [hrest q hq]; exact hpix⟩

/-- The pixels of a sprite depend on its position only through `x0 mod 64` and `y mod 32`. -/
theorem spritePixels_congr {x0 x1 y y' : Nat} (hx : x0 % 64 = x1 % 64) (hy : y % 32 = y' % 32) (rows : List Byte) :
    spritePixels x0 y rows = spritePixels x1 y' rows := by
  induction rows generalizing y y' with
  | nil => rfl
  | cons row rows ih =>
    rw [spritePixels, spritePixels, ih (show (y + 1) % 32 = (y' + 1) % 32 by omega)]
    congr 1
    unfold rowPixels
    refine List.map_congr_left fun b _ => ?_
    simp only [wrapRow, wrapCol, Fin.ofNat, Prod.mk.injEq, Fin.mk.injEq]
    omega

end Sys2Proof.Machine
end

