-- ==== Sys2Proof/Laws/State.lean ====
section
/-! SUPPORT. One lemma per field per update of the state, true by rfl, so that no proof unfolds a record update. -/

namespace Sys2Proof.Machine.State

variable (s : State)

section setV
variable (a : Vector Byte 16)
@[simp] theorem setV_v : (s.setV a).v = a := rfl
@[simp] theorem setV_i : (s.setV a).i = s.i := rfl
@[simp] theorem setV_pc : (s.setV a).pc = s.pc := rfl
@[simp] theorem setV_stack : (s.setV a).stack = s.stack := rfl
@[simp] theorem setV_dt : (s.setV a).dt = s.dt := rfl
@[simp] theorem setV_st : (s.setV a).st = s.st := rfl
@[simp] theorem setV_mem : (s.setV a).mem = s.mem := rfl
@[simp] theorem setV_fb : (s.setV a).fb = s.fb := rfl
@[simp] theorem setV_draw : (s.setV a).draw = s.draw := rfl
@[simp] theorem setV_key : (s.setV a).key = s.key := rfl
@[simp] theorem setV_lastKey : (s.setV a).lastKey = s.lastKey := rfl
@[simp] theorem setV_status : (s.setV a).status = s.status := rfl
@[simp] theorem setV_romImg : (s.setV a).romImg = s.romImg := rfl
@[simp] theorem setV_draws : (s.setV a).draws = s.draws := rfl
end setV

section setI
variable (a : Addr)
@[simp] theorem setI_v : (s.setI a).v = s.v := rfl
@[simp] theorem setI_i : (s.setI a).i = a := rfl
@[simp] theorem setI_pc : (s.setI a).pc = s.pc := rfl
@[simp] theorem setI_stack : (s.setI a).stack = s.stack := rfl
@[simp] theorem setI_dt : (s.setI a).dt = s.dt := rfl
@[simp] theorem setI_st : (s.setI a).st = s.st := rfl
@[simp] theorem setI_mem : (s.setI a).mem = s.mem := rfl
@[simp] theorem setI_fb : (s.setI a).fb = s.fb := rfl
@[simp] theorem setI_draw : (s.setI a).draw = s.draw := rfl
@[simp] theorem setI_key : (s.setI a).key = s.key := rfl
@[simp] theorem setI_lastKey : (s.setI a).lastKey = s.lastKey := rfl
@[simp] theorem setI_status : (s.setI a).status = s.status := rfl
@[simp] theorem setI_romImg : (s.setI a).romImg = s.romImg := rfl
@[simp] theorem setI_draws : (s.setI a).draws = s.draws := rfl
end setI

section setPc
variable (a : Addr)
@[simp] theorem setPc_v : (s.setPc a).v = s.v := rfl
@[simp] theorem setPc_i : (s.setPc a).i = s.i := rfl
@[simp] theorem setPc_pc : (s.setPc a).pc = a := rfl
@[simp] theorem setPc_stack : (s.setPc a).stack = s.stack := rfl
@[simp] theorem setPc_dt : (s.setPc a).dt = s.dt := rfl
@[simp] theorem setPc_st : (s.setPc a).st = s.st := rfl
@[simp] theorem setPc_mem : (s.setPc a).mem = s.mem := rfl
@[simp] theorem setPc_fb : (s.setPc a).fb = s.fb := rfl
@[simp] theorem setPc_draw : (s.setPc a).draw = s.draw := rfl
@[simp] theorem setPc_key : (s.setPc a).key = s.key := rfl
@[simp] theorem setPc_lastKey : (s.setPc a).lastKey = s.lastKey := rfl
@[simp] theorem setPc_status : (s.setPc a).status = s.status := rfl
@[simp] theorem setPc_romImg : (s.setPc a).romImg = s.romImg := rfl
@[simp] theorem setPc_draws : (s.setPc a).draws = s.draws := rfl
end setPc

section setStack
variable (a : List Addr)
@[simp] theorem setStack_v : (s.setStack a).v = s.v := rfl
@[simp] theorem setStack_i : (s.setStack a).i = s.i := rfl
@[simp] theorem setStack_pc : (s.setStack a).pc = s.pc := rfl
@[simp] theorem setStack_stack : (s.setStack a).stack = a := rfl
@[simp] theorem setStack_dt : (s.setStack a).dt = s.dt := rfl
@[simp] theorem setStack_st : (s.setStack a).st = s.st := rfl
@[simp] theorem setStack_mem : (s.setStack a).mem = s.mem := rfl
@[simp] theorem setStack_fb : (s.setStack a).fb = s.fb := rfl
@[simp] theorem setStack_draw : (s.setStack a).draw = s.draw := rfl
@[simp] theorem setStack_key : (s.setStack a).key = s.key := rfl
@[simp] theorem setStack_lastKey : (s.setStack a).lastKey = s.lastKey := rfl
@[simp] theorem setStack_status : (s.setStack a).status = s.status := rfl
@[simp] theorem setStack_romImg : (s.setStack a).romImg = s.romImg := rfl
@[simp] theorem setStack_draws : (s.setStack a).draws = s.draws := rfl
end setStack

section setDt
variable (a : Byte)
@[simp] theorem setDt_v : (s.setDt a).v = s.v := rfl
@[simp] theorem setDt_i : (s.setDt a).i = s.i := rfl
@[simp] theorem setDt_pc : (s.setDt a).pc = s.pc := rfl
@[simp] theorem setDt_stack : (s.setDt a).stack = s.stack := rfl
@[simp] theorem setDt_dt : (s.setDt a).dt = a := rfl
@[simp] theorem setDt_st : (s.setDt a).st = s.st := rfl
@[simp] theorem setDt_mem : (s.setDt a).mem = s.mem := rfl
@[simp] theorem setDt_fb : (s.setDt a).fb = s.fb := rfl
@[simp] theorem setDt_draw : (s.setDt a).draw = s.draw := rfl
@[simp] theorem setDt_key : (s.setDt a).key = s.key := rfl
@[simp] theorem setDt_lastKey : (s.setDt a).lastKey = s.lastKey := rfl
@[simp] theorem setDt_status : (s.setDt a).status = s.status := rfl
@[simp] theorem setDt_romImg : (s.setDt a).romImg = s.romImg := rfl
@[simp] theorem setDt_draws : (s.setDt a).draws = s.draws := rfl
end setDt

section setSt
variable (a : Byte)
@[simp] theorem setSt_v : (s.setSt a).v = s.v := rfl
@[simp] theorem setSt_i : (s.setSt a).i = s.i := rfl
@[simp] theorem setSt_pc : (s.setSt a).pc = s.pc := rfl
@[simp] theorem setSt_stack : (s.setSt a).stack = s.stack := rfl
@[simp] theorem setSt_dt : (s.setSt a).dt = s.dt := rfl
@[simp] theorem setSt_st : (s.setSt a).st = a := rfl
@[simp] theorem setSt_mem : (s.setSt a).mem = s.mem := rfl
@[simp] theorem setSt_fb : (s.setSt a).fb = s.fb := rfl
@[simp] theorem setSt_draw : (s.setSt a).draw = s.draw := rfl
@[simp] theorem setSt_key : (s.setSt a).key = s.key := rfl
@[simp] theorem setSt_lastKey : (s.setSt a).lastKey = s.lastKey := rfl
@[simp] theorem setSt_status : (s.setSt a).status = s.status := rfl
@[simp] theorem setSt_romImg : (s.setSt a).romImg = s.romImg := rfl
@[simp] theorem setSt_draws : (s.setSt a).draws = s.draws := rfl
end setSt

section setMem
variable (a : Memory)
@[simp] theorem setMem_v : (s.setMem a).v = s.v := rfl
@[simp] theorem setMem_i : (s.setMem a).i = s.i := rfl
@[simp] theorem setMem_pc : (s.setMem a).pc = s.pc := rfl
@[simp] theorem setMem_stack : (s.setMem a).stack = s.stack := rfl
@[simp] theorem setMem_dt : (s.setMem a).dt = s.dt := rfl
@[simp] theorem setMem_st : (s.setMem a).st = s.st := rfl
@[simp] theorem setMem_mem : (s.setMem a).mem = a := rfl
@[simp] theorem setMem_fb : (s.setMem a).fb = s.fb := rfl
@[simp] theorem setMem_draw : (s.setMem a).draw = s.draw := rfl
@[simp] theorem setMem_key : (s.setMem a).key = s.key := rfl
@[simp] theorem setMem_lastKey : (s.setMem a).lastKey = s.lastKey := rfl
@[simp] theorem setMem_status : (s.setMem a).status = s.status := rfl
@[simp] theorem setMem_romImg : (s.setMem a).romImg = s.romImg := rfl
@[simp] theorem setMem_draws : (s.setMem a).draws = s.draws := rfl
end setMem

section setFb
variable (a : Framebuffer)
@[simp] theorem setFb_v : (s.setFb a).v = s.v := rfl
@[simp] theorem setFb_i : (s.setFb a).i = s.i := rfl
@[simp] theorem setFb_pc : (s.setFb a).pc = s.pc := rfl
@[simp] theorem setFb_stack : (s.setFb a).stack = s.stack := rfl
@[simp] theorem setFb_dt : (s.setFb a).dt = s.dt := rfl
@[simp] theorem setFb_st : (s.setFb a).st = s.st := rfl
@[simp] theorem setFb_mem : (s.setFb a).mem = s.mem := rfl
@[simp] theorem setFb_fb : (s.setFb a).fb = a := rfl
@[simp] theorem setFb_draw : (s.setFb a).draw = s.draw := rfl
@[simp] theorem setFb_key : (s.setFb a).key = s.key := rfl
@[simp] theorem setFb_lastKey : (s.setFb a).lastKey = s.lastKey := rfl
@[simp] theorem setFb_status : (s.setFb a).status = s.status := rfl
@[simp] theorem setFb_romImg : (s.setFb a).romImg = s.romImg := rfl
@[simp] theorem setFb_draws : (s.setFb a).draws = s.draws := rfl
end setFb

section setDraw
variable (a : Bool)
@[simp] theorem setDraw_v : (s.setDraw a).v = s.v := rfl
@[simp] theorem setDraw_i : (s.setDraw a).i = s.i := rfl
@[simp] theorem setDraw_pc : (s.setDraw a).pc = s.pc := rfl
@[simp] theorem setDraw_stack : (s.setDraw a).stack = s.stack := rfl
@[simp] theorem setDraw_dt : (s.setDraw a).dt = s.dt := rfl
@[simp] theorem setDraw_st : (s.setDraw a).st = s.st := rfl
@[simp] theorem setDraw_mem : (s.setDraw a).mem = s.mem := rfl
@[simp] theorem setDraw_fb : (s.setDraw a).fb = s.fb := rfl
@[simp] theorem setDraw_draw : (s.setDraw a).draw = a := rfl
@[simp] theorem setDraw_key : (s.setDraw a).key = s.key := rfl
@[simp] theorem setDraw_lastKey : (s.setDraw a).lastKey = s.lastKey := rfl
@[simp] theorem setDraw_status : (s.setDraw a).status = s.status := rfl
@[simp] theorem setDraw_romImg : (s.setDraw a).romImg = s.romImg := rfl
@[simp] theorem setDraw_draws : (s.setDraw a).draws = s.draws := rfl
end setDraw

section setKeys
variable (a : Vector Bool 16)
@[simp] theorem setKeys_v : (s.setKeys a).v = s.v := rfl
@[simp] theorem setKeys_i : (s.setKeys a).i = s.i := rfl
@[simp] theorem setKeys_pc : (s.setKeys a).pc = s.pc := rfl
@[simp] theorem setKeys_stack : (s.setKeys a).stack = s.stack := rfl
@[simp] theorem setKeys_dt : (s.setKeys a).dt = s.dt := rfl
@[simp] theorem setKeys_st : (s.setKeys a).st = s.st := rfl
@[simp] theorem setKeys_mem : (s.setKeys a).mem = s.mem := rfl
@[simp] theorem setKeys_fb : (s.setKeys a).fb = s.fb := rfl
@[simp] theorem setKeys_draw : (s.setKeys a).draw = s.draw := rfl
@[simp] theorem setKeys_key : (s.setKeys a).key = a := rfl
@[simp] theorem setKeys_lastKey : (s.setKeys a).lastKey = s.lastKey := rfl
@[simp] theorem setKeys_status : (s.setKeys a).status = s.status := rfl
@[simp] theorem setKeys_romImg : (s.setKeys a).romImg = s.romImg := rfl
@[simp] theorem setKeys_draws : (s.setKeys a).draws = s.draws := rfl
end setKeys

section setLastKey
variable (a : Option Key)
@[simp] theorem setLastKey_v : (s.setLastKey a).v = s.v := rfl
@[simp] theorem setLastKey_i : (s.setLastKey a).i = s.i := rfl
@[simp] theorem setLastKey_pc : (s.setLastKey a).pc = s.pc := rfl
@[simp] theorem setLastKey_stack : (s.setLastKey a).stack = s.stack := rfl
@[simp] theorem setLastKey_dt : (s.setLastKey a).dt = s.dt := rfl
@[simp] theorem setLastKey_st : (s.setLastKey a).st = s.st := rfl
@[simp] theorem setLastKey_mem : (s.setLastKey a).mem = s.mem := rfl
@[simp] theorem setLastKey_fb : (s.setLastKey a).fb = s.fb := rfl
@[simp] theorem setLastKey_draw : (s.setLastKey a).draw = s.draw := rfl
@[simp] theorem setLastKey_key : (s.setLastKey a).key = s.key := rfl
@[simp] theorem setLastKey_lastKey : (s.setLastKey a).lastKey = a := rfl
@[simp] theorem setLastKey_status : (s.setLastKey a).status = s.status := rfl
@[simp] theorem setLastKey_romImg : (s.setLastKey a).romImg = s.romImg := rfl
@[simp] theorem setLastKey_draws : (s.setLastKey a).draws = s.draws := rfl
end setLastKey

section setStatus
variable (a : Status)
@[simp] theorem setStatus_v : (s.setStatus a).v = s.v := rfl
@[simp] theorem setStatus_i : (s.setStatus a).i = s.i := rfl
@[simp] theorem setStatus_pc : (s.setStatus a).pc = s.pc := rfl
@[simp] theorem setStatus_stack : (s.setStatus a).stack = s.stack := rfl
@[simp] theorem setStatus_dt : (s.setStatus a).dt = s.dt := rfl
@[simp] theorem setStatus_st : (s.setStatus a).st = s.st := rfl
@[simp] theorem setStatus_mem : (s.setStatus a).mem = s.mem := rfl
@[simp] theorem setStatus_fb : (s.setStatus a).fb = s.fb := rfl
@[simp] theorem setStatus_draw : (s.setStatus a).draw = s.draw := rfl
@[simp] theorem setStatus_key : (s.setStatus a).key = s.key := rfl
@[simp] theorem setStatus_lastKey : (s.setStatus a).lastKey = s.lastKey := rfl
@[simp] theorem setStatus_status : (s.setStatus a).status = a := rfl
@[simp] theorem setStatus_romImg : (s.setStatus a).romImg = s.romImg := rfl
@[simp] theorem setStatus_draws : (s.setStatus a).draws = s.draws := rfl
end setStatus

section setRomImg
variable (a : List Byte)
@[simp] theorem setRomImg_v : (s.setRomImg a).v = s.v := rfl
@[simp] theorem setRomImg_i : (s.setRomImg a).i = s.i := rfl
@[simp] theorem setRomImg_pc : (s.setRomImg a).pc = s.pc := rfl
@[simp] theorem setRomImg_stack : (s.setRomImg a).stack = s.stack := rfl
@[simp] theorem setRomImg_dt : (s.setRomImg a).dt = s.dt := rfl
@[simp] theorem setRomImg_st : (s.setRomImg a).st = s.st := rfl
@[simp] theorem setRomImg_mem : (s.setRomImg a).mem = s.mem := rfl
@[simp] theorem setRomImg_fb : (s.setRomImg a).fb = s.fb := rfl
@[simp] theorem setRomImg_draw : (s.setRomImg a).draw = s.draw := rfl
@[simp] theorem setRomImg_key : (s.setRomImg a).key = s.key := rfl
@[simp] theorem setRomImg_lastKey : (s.setRomImg a).lastKey = s.lastKey := rfl
@[simp] theorem setRomImg_status : (s.setRomImg a).status = s.status := rfl
@[simp] theorem setRomImg_romImg : (s.setRomImg a).romImg = a := rfl
@[simp] theorem setRomImg_draws : (s.setRomImg a).draws = s.draws := rfl
end setRomImg

section setDraws
variable (a : Nat)
@[simp] theorem setDraws_v : (s.setDraws a).v = s.v := rfl
@[simp] theorem setDraws_i : (s.setDraws a).i = s.i := rfl
@[simp] theorem setDraws_pc : (s.setDraws a).pc = s.pc := rfl
@[simp] theorem setDraws_stack : (s.setDraws a).stack = s.stack := rfl
@[simp] theorem setDraws_dt : (s.setDraws a).dt = s.dt := rfl
@[simp] theorem setDraws_st : (s.setDraws a).st = s.st := rfl
@[simp] theorem setDraws_mem : (s.setDraws a).mem = s.mem := rfl
@[simp] theorem setDraws_fb : (s.setDraws a).fb = s.fb := rfl
@[simp] theorem setDraws_draw : (s.setDraws a).draw = s.draw := rfl
@[simp] theorem setDraws_key : (s.setDraws a).key = s.key := rfl
@[simp] theorem setDraws_lastKey : (s.setDraws a).lastKey = s.lastKey := rfl
@[simp] theorem setDraws_status : (s.setDraws a).status = s.status := rfl
@[simp] theorem setDraws_romImg : (s.setDraws a).romImg = s.romImg := rfl
@[simp] theorem setDraws_draws : (s.setDraws a).draws = a := rfl
end setDraws

end Sys2Proof.Machine.State
end

