-- ==== Sys2Proof/Laws/Memory.lean ====
section
/-! SUPPORT. Memory: what a read gives after a write, that every operation keeps the canonical form, and that canonical memories that read alike are equal. -/

namespace Sys2Proof.Machine.Memory

/-! ### Reads after writes -/

theorem lookup_erase (m : Memory) (a b : Nat) :
    (m.erase a).lookup b = if b = a then initial b else m.lookup b := by
  induction m with
  | nil => simp [erase, lookup]
  | cons c m ih =>
    obtain ⟨k, v⟩ := c
    by_cases hk : k = a
    · subst hk
      by_cases hb : b = k
      · subst hb; simpa [erase] using ih
      · simpa [erase, lookup, hb, Ne.symm hb] using ih
    · by_cases hb : k = b
      · subst hb; simp [erase, lookup, hk]
      · simpa [erase, lookup, hk, hb] using ih

theorem lookup_insert (m : Memory) (a b : Nat) (v : Byte) (h : m.erase a = m) :
    (m.insert a v).lookup b = if b = a then v else m.lookup b := by
  induction m with
  | nil =>
    by_cases hb : a = b
    · subst hb; simp [insert, lookup]
    · simp [insert, lookup, hb, Ne.symm hb]
  | cons c m ih =>
    obtain ⟨k, w⟩ := c
    have hk : k ≠ a := by
      rintro rfl
      simp only [erase, if_true] at h
      have : (erase m k).length ≤ m.length := by
        clear h ih
        induction m with
        | nil => simp [erase]
        | cons d m ihm => simp only [erase]; split <;> simp <;> omega
      rw [h] at this
      simp at this
    have ih' := ih (by simpa [erase, hk] using h)
    by_cases hlt : a < k
    · by_cases hb : a = b
      · subst hb; simp [insert, hlt, lookup]
      · simp [insert, hlt, lookup, hb, Ne.symm hb]
    · by_cases hb : k = b
      · subst hb; simp [insert, hlt, lookup, hk]
      · simpa [insert, hlt, lookup, hb] using ih'

theorem erase_erase (m : Memory) (a : Nat) : (m.erase a).erase a = m.erase a := by
  induction m with
  | nil => rfl
  | cons c m ih =>
    obtain ⟨k, v⟩ := c
    by_cases hk : k = a <;> simp [erase, hk, ih]

/-- A write is read back at its address and leaves every other address alone (20_memory.md R41, R42). -/
theorem read_write (m : Memory) (a b : Addr) (v : Byte) :
    (m.write a v).read b = if b = a then v else m.read b := by
  have hab : b.toNat = a.toNat ↔ b = a := BitVec.toNat_inj
  unfold write read
  split
  · rename_i hv
    rw [lookup_erase]
    by_cases h : b = a
    · subst h; simp [hv]
    · simp [h, hab]
  · rw [lookup_insert _ _ _ _ (erase_erase _ _), lookup_erase]
    by_cases h : b = a
    · simp [h]
    · simp [h, hab]

@[simp] theorem read_write_same (m : Memory) (a : Addr) (v : Byte) : (m.write a v).read a = v := by
  simp [read_write]

theorem read_write_ne (m : Memory) {a b : Addr} (v : Byte) (h : b ≠ a) : (m.write a v).read b = m.read b := by
  simp [read_write, h]

/-! ### Blocks -/

@[simp] theorem length_readBlock (m : Memory) (a : Addr) (n : Nat) : (m.readBlock a n).length = n := by
  induction n generalizing a with
  | zero => rfl
  | succ n ih => simp [readBlock, ih]

/-- Byte `k` of a block is the byte at `a + k` (20_memory.md R46). -/
theorem readBlock_eq_map (m : Memory) (a : Addr) (n : Nat) :
    m.readBlock a n = (List.range n).map fun k => m.read (a + BitVec.ofNat 12 k) := by
  induction n generalizing a with
  | zero => rfl
  | succ n ih =>
    rw [readBlock, ih, List.range_succ_eq_map]
    simp only [List.map_cons, List.map_map, BitVec.ofNat_eq_ofNat, BitVec.add_zero]
    congr 1
    apply List.map_congr_left
    intro k _
    simp only [Function.comp]
    congr 1
    apply BitVec.eq_of_toNat_eq
    simp [BitVec.toNat_add]
    omega

/-- After a block of at most 4096 bytes is written at `a`, the address at distance `d` from `a` reads as byte `d`
of the block if there is one, and as before otherwise. -/
theorem read_writeBlock (m : Memory) (a b : Addr) (bs : List Byte) (h : bs.length ≤ 4096) :
    (m.writeBlock a bs).read b = (bs[(b - a).toNat]?).getD (m.read b) := by
  induction bs generalizing a m with
  | nil => simp [writeBlock]
  | cons v bs ih =>
    simp only [List.length_cons] at h
    rw [writeBlock, ih _ _ (by omega)]
    by_cases hb : b = a
    · subst hb
      have h1 : (b - (b + 1)).toNat = 4095 := by
        have : b - (b + 1) = 4095#12 := by bv_omega
        rw [this]; rfl
      have h2 : bs[(b - (b + 1)).toNat]? = none := by
        rw [h1]; exact List.getElem?_eq_none (by omega)
      rw [h2]
      simp
    · have h1 : (b - a).toNat = (b - (a + 1)).toNat + 1 := by
        have hne : (b - a).toNat ≠ 0 := by
          intro h0
          apply hb
          have : b - a = 0#12 := BitVec.eq_of_toNat_eq (by simpa using h0)
          have := congrArg (· + a) this
          simpa [BitVec.sub_add_cancel] using this
        bv_omega
      rw [h1]
      simp [read_write_ne _ _ hb]

/-! ### The canonical form -/

/-- The canonical form of a nonempty list, as a proposition. -/
theorem wfFrom_cons (lo k : Nat) (v : Byte) (m : Memory) :
    wfFrom lo ((k, v) :: m) = true ↔ (lo ≤ k ∧ k < 4096 ∧ v ≠ initial k) ∧ m.wfFrom (k + 1) = true := by
  simp only [wfFrom, Bool.and_eq_true, decide_eq_true_eq, bne_iff_ne, and_assoc]
  exact Iff.rfl

theorem wfFrom_mono {lo lo' : Nat} (h : lo' ≤ lo) {m : Memory} (hm : m.wfFrom lo = true) : m.wfFrom lo' = true := by
  cases m with
  | nil => rfl
  | cons c m =>
    obtain ⟨k, v⟩ := c
    rw [wfFrom_cons] at hm ⊢
    exact ⟨⟨by omega, hm.1.2⟩, hm.2⟩

theorem wfFrom_erase {lo : Nat} {m : Memory} (a : Nat) (hm : m.wfFrom lo = true) : (m.erase a).wfFrom lo = true := by
  induction m generalizing lo with
  | nil => rfl
  | cons c m ih =>
    obtain ⟨k, v⟩ := c
    rw [wfFrom_cons] at hm
    unfold erase
    split
    · exact wfFrom_mono (by omega) (ih hm.2)
    · rw [wfFrom_cons]
      exact ⟨hm.1, ih hm.2⟩

theorem erase_of_wfFrom {lo a : Nat} {m : Memory} (h : a < lo) (hm : m.wfFrom lo = true) : m.erase a = m := by
  induction m generalizing lo with
  | nil => rfl
  | cons c m ih =>
    obtain ⟨k, v⟩ := c
    rw [wfFrom_cons] at hm
    have hk : k ≠ a := by omega
    simp [erase, hk, ih (lo := k + 1) (by omega) hm.2]

theorem wfFrom_insert_erase {lo a : Nat} {m : Memory} {v : Byte} (hlo : lo ≤ a) (ha : a < 4096)
    (hv : v ≠ initial a) (hm : m.wfFrom lo = true) : ((m.erase a).insert a v).wfFrom lo = true := by
  induction m generalizing lo with
  | nil => exact (wfFrom_cons _ _ _ _).2 ⟨⟨hlo, ha, hv⟩, rfl⟩
  | cons c m ih =>
    obtain ⟨k, w⟩ := c
    rw [wfFrom_cons] at hm
    obtain ⟨⟨hk1, hk2, hk3⟩, hk4⟩ := hm
    rcases Nat.lt_trichotomy a k with hak | hak | hak
    · rw [erase, if_neg (by omega), erase_of_wfFrom (lo := k + 1) (by omega) hk4, insert, if_pos hak,
        wfFrom_cons, wfFrom_cons]
      exact ⟨⟨hlo, ha, hv⟩, ⟨by omega, hk2, hk3⟩, hk4⟩
    · subst hak
      rw [erase, if_pos rfl, erase_of_wfFrom (lo := a + 1) (by omega) hk4]
      cases m with
      | nil => exact (wfFrom_cons _ _ _ _).2 ⟨⟨hlo, ha, hv⟩, rfl⟩
      | cons d m =>
        obtain ⟨k', w'⟩ := d
        have hk5 := hk4
        rw [wfFrom_cons] at hk5
        rw [insert, if_pos (by omega), wfFrom_cons]
        exact ⟨⟨hlo, ha, hv⟩, hk4⟩
    · rw [erase, if_neg (by omega), insert, if_neg (by omega), wfFrom_cons]
      exact ⟨⟨hk1, hk2, hk3⟩, ih (lo := k + 1) (by omega) hk4⟩

/-- A write keeps the canonical form. -/
theorem wf_write {m : Memory} (a : Addr) (v : Byte) (hm : m.wf = true) : (m.write a v).wf = true := by
  unfold write wf
  split
  · exact wfFrom_erase _ hm
  · rename_i hv
    exact wfFrom_insert_erase (Nat.zero_le _) a.isLt hv hm

/-- A block of writes keeps the canonical form. -/
theorem wf_writeBlock {m : Memory} (a : Addr) (bs : List Byte) (hm : m.wf = true) : (m.writeBlock a bs).wf = true := by
  induction bs generalizing m a with
  | nil => exact hm
  | cons v bs ih => exact ih _ (wf_write a v hm)

/-! ### Memory after construct -/

/-- Past the font, construct leaves zero (20_memory.md R48). -/
theorem constructByte_of_le (font : Config.Font) {a : Nat} (h : 80 ≤ a) : constructByte font a = 0 := by
  simp [constructByte, h]

/-- MEM after construct holds the font given, and zero elsewhere (20_memory.md R48). -/
@[simp] theorem read_ofFont (font : Config.Font) (a : Addr) : (ofFont font).read a = constructByte font a.toNat := by
  rw [ofFont, read_writeBlock _ _ _ _ (by simp)]
  rw [show a - 0 = a from BitVec.sub_zero a]
  by_cases h : a.toNat < 80
  · rw [constructByte, List.getD_eq_getElem?_getD, List.getElem?_eq_getElem (by simpa using h)]
    rfl
  · rw [List.getElem?_eq_none (by simpa using h), constructByte_of_le font (by omega)]
    exact constructByte_of_le _ (by omega)

theorem wf_ofFont (font : Config.Font) : (ofFont font).wf = true := wf_writeBlock _ _ rfl

/-! ### Equal reads, equal memories -/

theorem lookup_of_wfFrom {lo a : Nat} {m : Memory} (h : a < lo) (hm : m.wfFrom lo = true) : m.lookup a = initial a := by
  induction m generalizing lo with
  | nil => rfl
  | cons c m ih =>
    obtain ⟨k, v⟩ := c
    rw [wfFrom_cons] at hm
    have hk : k ≠ a := by omega
    simp [lookup, hk, ih (lo := k + 1) (by omega) hm.2]

theorem eq_of_lookup_eq {lo : Nat} {m n : Memory} (hm : m.wfFrom lo = true) (hn : n.wfFrom lo = true)
    (h : ∀ a < 4096, m.lookup a = n.lookup a) : m = n := by
  induction m generalizing lo n with
  | nil =>
    cases n with
    | nil => rfl
    | cons d n =>
      obtain ⟨k, v⟩ := d
      rw [wfFrom_cons] at hn
      have := h k hn.1.2.1
      simp [lookup] at this
      exact absurd this.symm hn.1.2.2
  | cons c m ih =>
    obtain ⟨k, v⟩ := c
    rw [wfFrom_cons] at hm
    cases n with
    | nil =>
      have := h k hm.1.2.1
      simp [lookup] at this
      exact absurd this hm.1.2.2
    | cons d n =>
      obtain ⟨k', v'⟩ := d
      rw [wfFrom_cons] at hn
      rcases Nat.lt_trichotomy k k' with hkk | hkk | hkk
      · have := h k hm.1.2.1
        have hl := lookup_of_wfFrom (a := k) (lo := k' + 1) (by omega) hn.2
        simp only [lookup, if_true, if_neg (show ¬ k' = k by omega), hl] at this
        exact absurd this hm.1.2.2
      · subst hkk
        have hv := h k hm.1.2.1
        simp [lookup] at hv
        subst hv
        have : m = n := by
          refine ih hm.2 hn.2 fun a ha => ?_
          by_cases hak : a = k
          · subst hak
            rw [lookup_of_wfFrom (lo := a + 1) (by omega) hm.2, lookup_of_wfFrom (lo := a + 1) (by omega) hn.2]
          · have := h a ha
            simpa [lookup, Ne.symm hak] using this
        rw [this]
      · have := h k' hn.1.2.1
        have hl := lookup_of_wfFrom (a := k') (lo := k + 1) (by omega) hm.2
        simp only [lookup, if_true, if_neg (show ¬ k = k' by omega), hl] at this
        exact absurd this.symm hn.1.2.2

/-- Canonical memories that read alike at every address are the same list. -/
theorem eq_of_read_eq {m n : Memory} (hm : m.wf = true) (hn : n.wf = true) (h : ∀ a : Addr, m.read a = n.read a) :
    m = n := by
  refine eq_of_lookup_eq hm hn fun a ha => ?_
  have := h (BitVec.ofNat 12 a)
  simpa [read, Nat.mod_eq_of_lt ha] using this

/-- For the default FONT nothing is listed. -/
@[simp] theorem ofFont_default : ofFont Config.font = [] :=
  eq_of_read_eq (wf_ofFont _) rfl fun a => read_ofFont _ a

end Sys2Proof.Machine.Memory
end

