-- ==== Sys2Proof/Laws/Registers.lean ====
section
/-! SUPPORT. Registers, keys, the block at I, skips, the call stack and the two register-flag orders: one lemma per thing each operation can do. -/

namespace Sys2Proof.Machine

variable (s : State)

/-! ### Registers and keys -/

@[simp] theorem State.reg_setReg_same (x : Reg) (b : Byte) : (s.setReg x b).reg x = b := by
  simp [State.reg, State.setReg, Vector.get_eq_getElem]

theorem State.reg_setReg_ne {x r : Reg} (b : Byte) (h : r ≠ x) : (s.setReg x b).reg r = s.reg r := by
  have : x.val ≠ r.val := fun e => h (Fin.ext e.symm)
  simp [State.reg, State.setReg, Vector.get_eq_getElem, this]

theorem State.reg_setReg (x r : Reg) (b : Byte) : (s.setReg x b).reg r = if r = x then b else s.reg r := by
  by_cases h : r = x
  · subst h; simp
  · simp [h, State.reg_setReg_ne]

theorem State.keyDown_setKey (k j : Key) (b : Bool) : (s.setKey k b).keyDown j = if j = k then b else s.keyDown j := by
  by_cases h : j = k
  · subst h; simp [State.keyDown, State.setKey, Vector.get_eq_getElem]
  · have : k.val ≠ j.val := fun e => h (Fin.ext e.symm)
    simp [State.keyDown, State.setKey, Vector.get_eq_getElem, this, h]

section setReg
variable (x : Reg) (b : Byte)
@[simp] theorem State.setReg_i : (s.setReg x b).i = s.i := rfl
@[simp] theorem State.setReg_pc : (s.setReg x b).pc = s.pc := rfl
@[simp] theorem State.setReg_stack : (s.setReg x b).stack = s.stack := rfl
@[simp] theorem State.setReg_dt : (s.setReg x b).dt = s.dt := rfl
@[simp] theorem State.setReg_st : (s.setReg x b).st = s.st := rfl
@[simp] theorem State.setReg_mem : (s.setReg x b).mem = s.mem := rfl
@[simp] theorem State.setReg_fb : (s.setReg x b).fb = s.fb := rfl
@[simp] theorem State.setReg_draw : (s.setReg x b).draw = s.draw := rfl
@[simp] theorem State.setReg_key : (s.setReg x b).key = s.key := rfl
@[simp] theorem State.setReg_lastKey : (s.setReg x b).lastKey = s.lastKey := rfl
@[simp] theorem State.setReg_status : (s.setReg x b).status = s.status := rfl
@[simp] theorem State.setReg_romImg : (s.setReg x b).romImg = s.romImg := rfl
@[simp] theorem State.setReg_draws : (s.setReg x b).draws = s.draws := rfl
end setReg

/-! Reading a register looks at V alone. -/
@[simp] theorem State.reg_setI (a : Addr) (r : Reg) : (s.setI a).reg r = s.reg r := rfl
@[simp] theorem State.reg_setPc (a : Addr) (r : Reg) : (s.setPc a).reg r = s.reg r := rfl
@[simp] theorem State.reg_setStack (a : List Addr) (r : Reg) : (s.setStack a).reg r = s.reg r := rfl
@[simp] theorem State.reg_setDt (a : Byte) (r : Reg) : (s.setDt a).reg r = s.reg r := rfl
@[simp] theorem State.reg_setSt (a : Byte) (r : Reg) : (s.setSt a).reg r = s.reg r := rfl
@[simp] theorem State.reg_setMem (a : Memory) (r : Reg) : (s.setMem a).reg r = s.reg r := rfl
@[simp] theorem State.reg_setFb (a : Framebuffer) (r : Reg) : (s.setFb a).reg r = s.reg r := rfl
@[simp] theorem State.reg_setDraw (a : Bool) (r : Reg) : (s.setDraw a).reg r = s.reg r := rfl
@[simp] theorem State.reg_setKeys (a : Vector Bool 16) (r : Reg) : (s.setKeys a).reg r = s.reg r := rfl
@[simp] theorem State.reg_setKey (k : Key) (b : Bool) (r : Reg) : (s.setKey k b).reg r = s.reg r := rfl
@[simp] theorem State.reg_setLastKey (a : Option Key) (r : Reg) : (s.setLastKey a).reg r = s.reg r := rfl
@[simp] theorem State.reg_setStatus (a : Status) (r : Reg) : (s.setStatus a).reg r = s.reg r := rfl
@[simp] theorem State.reg_setRomImg (a : List Byte) (r : Reg) : (s.setRomImg a).reg r = s.reg r := rfl
@[simp] theorem State.reg_setDraws (a : Nat) (r : Reg) : (s.setDraws a).reg r = s.reg r := rfl

/-! ### The two orders of result and flag -/

/-- The result is written first and the flag last: VF ends as the flag, and for x = 15 the result is lost
(41_register_alu.md R100). -/
theorem State.reg_resultThenFlag (x r : Reg) (res fl : Byte) :
    (s.resultThenFlag x res fl).reg r = if r = vf then fl else if r = x then res else s.reg r := by
  simp [State.resultThenFlag, State.reg_setReg]

/-- The flag is written first and Vx last, computed from the registers with the flag in VF: for x = 15 VF ends as
the result (41_register_alu.md R100). -/
theorem State.reg_flagThenResult (x r : Reg) (fl : Byte) (res : State → Byte) :
    (s.flagThenResult x fl res).reg r =
      if r = x then res (s.setReg vf fl) else if r = vf then fl else s.reg r := by
  simp [State.flagThenResult, State.reg_setReg]

/-! ### Flags -/

@[simp] theorem toNat_flagByte (c : Bool) : (flagByte c).toNat = if c then 1 else 0 := by cases c <;> rfl

theorem toNat_lowBitFlag (a : Byte) : (lowBitFlag a).toNat = a.toNat % 2 := by
  simp [lowBitFlag, BitVec.toNat_and, Nat.and_one_is_mod]

theorem toNat_highBitFlag (a : Byte) : (highBitFlag a).toNat = a.toNat / 128 := by
  simp [highBitFlag, BitVec.toNat_ushiftRight, Nat.shiftRight_eq_div_pow]

/-! ### Widening and the block at I -/

@[simp] theorem toNat_widen (b : Byte) : (widen b).toNat = b.toNat := by
  simp [widen, BitVec.toNat_setWidth, Nat.mod_eq_of_lt (show b.toNat < 4096 by omega)]

theorem State.toNat_indexAddr (k : Nat) : (s.indexAddr k).toNat = (s.i.toNat + k) % 4096 := by
  simp [State.indexAddr, BitVec.toNat_add, BitVec.toNat_ofNat]

/-- Two addresses of one block of at most 4096 bytes are different. -/
theorem State.indexAddr_inj {j k : Nat} (hj : j < 4096) (hk : k < 4096) :
    s.indexAddr j = s.indexAddr k ↔ j = k := by
  rw [← BitVec.toNat_inj, State.toNat_indexAddr, State.toNat_indexAddr]
  have := s.i.isLt
  omega

/-- What memory holds after a store of at most 4096 bytes at I: byte `k` at `(I + k) mod 4096`. -/
theorem State.read_writeAtIndex {bs : List Byte} (h : bs.length ≤ 4096) {k : Nat} (hk : k < bs.length) :
    (s.writeAtIndex bs).mem.read (s.indexAddr k) = bs[k] := by
  have h1 : (s.indexAddr k - s.i).toNat = k := by
    unfold State.indexAddr
    have : s.i + BitVec.ofNat 12 k - s.i = BitVec.ofNat 12 k := by bv_omega
    rw [this]; simp; omega
  rw [State.writeAtIndex, State.setMem_mem, Memory.read_writeBlock _ _ _ _ h, h1]
  simp [hk]

/-- An address that holds no byte of the store reads as before. -/
theorem State.read_writeAtIndex_ne {bs : List Byte} (h : bs.length ≤ 4096) {a : Addr}
    (ha : ∀ k < bs.length, a ≠ s.indexAddr k) : (s.writeAtIndex bs).mem.read a = s.mem.read a := by
  rw [State.writeAtIndex, State.setMem_mem, Memory.read_writeBlock _ _ _ _ h, List.getElem?_eq_none, Option.getD_none]
  by_contra hlt
  refine ha (a - s.i).toNat (by omega) ?_
  unfold State.indexAddr
  bv_omega

@[simp] theorem State.length_regsUpTo (x : Reg) : (s.regsUpTo x).length = x.val + 1 := by
  have := x.isLt
  simp [State.regsUpTo]

theorem State.getElem_regsUpTo (x k : Reg) (h : k ≤ x) :
    (s.regsUpTo x)[k.val]'(by rw [State.length_regsUpTo]; exact Nat.lt_succ_of_le h) = s.reg k := by
  simp [State.regsUpTo, State.reg, Vector.get_eq_getElem]

/-- LD_REGS loads registers 0 to x and leaves the others (42_index_memory.md R125). -/
theorem State.reg_loadRegsUpTo (x r : Reg) :
    (s.loadRegsUpTo x).reg r = if r ≤ x then s.mem.read (s.indexAddr r.val) else s.reg r := by
  simp [State.loadRegsUpTo, State.reg, Vector.get_eq_getElem, State.setV]

/-- The bytes at I are those at `(I + k) mod 4096` in order. -/
theorem State.readAtIndex_eq_map (n : Nat) :
    s.readAtIndex n = (List.range n).map fun k => s.mem.read (s.indexAddr k) :=
  Memory.readBlock_eq_map _ _ _

/-! ### Skips, PC, the call stack -/

/-- A skip writes PC alone, and only when taken. -/
theorem State.skipIf_eq (c : Bool) : s.skipIf c = s.setPc (if c then s.pc + 2 else s.pc) := by
  cases c <;> rfl

/-- While an instruction executes, `pc0` is the address its step fetched from. -/
@[simp] theorem State.instrAddr_advance : s.advance.instrAddr = s.pc := by
  simp only [State.instrAddr, State.advance, State.setPc_pc]
  bv_omega

theorem State.push_of_lt {a : Addr} (h : s.stack.length < Config.stackDepth) :
    s.push a = some (s.setStack (s.stack ++ [a])) := by simp [State.push, h]

theorem State.push_of_full {a : Addr} (h : Config.stackDepth ≤ s.stack.length) : s.push a = none := by
  simp [State.push, Nat.not_lt.2 h]

theorem State.pop_of_append {below : List Addr} {a : Addr} (h : s.stack = below ++ [a]) :
    s.pop = some (a, s.setStack below) := by simp [State.pop, h]

theorem State.pop_of_nil (h : s.stack = []) : s.pop = none := by simp [State.pop, h]

end Sys2Proof.Machine
end

