-- ==== Sys2Proof/Laws/Step.lean ====
section
/-! SUPPORT. What a step, an event and a schedule can do, said once. -/

namespace Sys2Proof.Machine

variable {s t : State}

/-- A step that completes changes nothing in a key wait, and otherwise runs the decoded instruction
(40_control_flow.md R80, R81). -/
theorem step_next_cases (h : step s = .next t) :
    (∃ x, s.status = .awaitingKey x ∧ t = s) ∨
    (s.status = .running ∧ ∃ i, decode s.fetchOpcode = .ok i ∧ s.nextInstr = some i ∧ exec i s.advance = .next t) := by
  unfold step at h
  split at h
  · next x hx => exact .inl ⟨x, hx, (Host.Outcome.next.inj h).symm⟩
  · next hr =>
    split at h
    · next i hi => exact .inr ⟨hr, i, hi, by simp [State.nextInstr, hr, hi], h⟩
    · simp [State.raise] at h

/-- A Running machine steps by its decoded instruction. -/
theorem step_of_decode {i : Instr} (hs : s.status = .running) (hi : decode s.fetchOpcode = .ok i) :
    step s = exec i s.advance := by simp [step, hs, hi]

/-- A Running machine on an illegal opcode faults with it and its address. -/
theorem step_of_error {e : DecodeError} (hs : s.status = .running) (hi : decode s.fetchOpcode = .error e) :
    step s = .fault (.invalidOpcode s.fetchOpcode s.pc) := by simp [step, hs, hi, State.raise]

theorem step_of_awaiting {x : Reg} (hs : s.status = .awaitingKey x) : step s = .next s := by simp [step, hs]

theorem nextInstr_eq_some {i : Instr} :
    s.nextInstr = some i ↔ s.status = .running ∧ decode s.fetchOpcode = .ok i := by
  unfold State.nextInstr
  split
  · next h1 h2 => simp [h1, h2]
  · next h =>
    simp only [reduceCtorEq, false_iff, not_and]
    exact fun h1 h2 => h i h1 h2

/-- The event `step()` leads where a step that completes leads. -/
theorem deliver_step_of_next (font : Config.Font) (h : step s = .next t) : (s.deliver font .step).1 = t := by
  simp [State.deliver, h, State.settle]

theorem deliver_step_of_fault (font : Config.Font) {f : Fault} (h : step s = .fault f) :
    s.deliver font .step = (s, .fault f) := by
  simp [State.deliver, h, State.settle]

theorem loadRom_of_fits {bytes : List Byte} (h : bytes.length ≤ 3584) : s.loadRom bytes = .next (s.copyRom bytes) := by
  simp [State.loadRom, romFits, Config.romMax, h]

theorem loadRom_of_too_long {bytes : List Byte} (h : 3584 < bytes.length) :
    s.loadRom bytes = .fault (.romTooLarge bytes.length) := by
  simp [State.loadRom, romFits, Config.romMax, Nat.not_le.2 h]

/-- `State.reset` is the newly made machine with the default FONT. -/
@[simp] theorem fresh_default : State.fresh Config.font = State.reset := by
  rw [State.fresh, Memory.ofFont_default]; rfl

/-- A schedule run in two parts. -/
theorem runSchedule_append (s : State) (font : Config.Font) (es fs : List Event) :
    s.runSchedule font (es ++ fs) = (s.runSchedule font es).runSchedule font fs := by
  induction es generalizing s with
  | nil => rfl
  | cons e es ih => exact ih _

/-- What every event of a list keeps, a schedule of them keeps. -/
theorem runSchedule_induction {font : Config.Font} {P : State → Prop} {es : List Event} (hs : P s)
    (h : ∀ e ∈ es, ∀ u, P u → P (u.deliver font e).1) : P (s.runSchedule font es) := by
  induction es generalizing s with
  | nil => exact hs
  | cons e es ih =>
    exact ih (h e (by simp) s hs) fun e' he' u hu => h e' (by simp [he']) u hu

/-- The first `n` events of an infinite schedule are a finite one. -/
theorem stateAt_eq_runSchedule (s : State) (font : Config.Font) (es : Nat → Event) (n : Nat) :
    s.stateAt font es n = s.runSchedule font ((List.range n).map es) := by
  induction n with
  | zero => rfl
  | succ n ih => rw [List.range_succ, List.map_append, runSchedule_append, ← ih]; rfl

/-- Every finite schedule begins an infinite one. -/
theorem runSchedule_eq_stateAt (s : State) (font : Config.Font) (es : List Event) :
    s.runSchedule font es = s.stateAt font (fun n => es.getD n .step) es.length := by
  rw [stateAt_eq_runSchedule]
  congr 1
  refine List.ext_getElem (by simp) fun n h _ => ?_
  simp [h]

/-- What every event of an infinite schedule keeps holds at every time of it. -/
theorem stateAt_induction {font : Config.Font} {P : State → Prop} {es : Nat → Event} (hs : P s)
    (h : ∀ n u, P u → P (u.deliver font (es n)).1) (n : Nat) : P (s.stateAt font es n) := by
  induction n with
  | zero => exact hs
  | succ n ih => exact h n _ ih

/-! ### Reports -/

@[simp] theorem report_response (s : State) (font : Config.Font) (e : Event) :
    (s.report font e).response = (s.deliver font e).2 := rfl

@[simp] theorem report_status (s : State) (font : Config.Font) (e : Event) :
    (s.report font e).status = (s.deliver font e).1.status := rfl

/-- There is one report for each event of a schedule. -/
@[simp] theorem length_reports (s : State) (font : Config.Font) (es : List Event) : (s.reports font es).length = es.length := by
  induction es generalizing s with
  | nil => rfl
  | cons e es ih => simp [State.reports, ih]

/-! ### Frames -/

theorem SameExcept.refl (l : List Field) (s : State) : SameExcept l s s := by
  intro f _
  cases f <;> simp [Field.Same]

theorem Field.Same.trans {u : State} {f : Field} (h₁ : Field.Same s t f) (h₂ : Field.Same t u f) : Field.Same s u f := by
  cases f <;> simp_all [Field.Same]

theorem SameExcept.mono {l l' : List Field} (h : l ⊆ l') (hs : SameExcept l s t) : SameExcept l' s t :=
  fun f hf => hs f fun hm => hf (h hm)

end Sys2Proof.Machine
end

