-- ==== Sys2Proof/Laws/Frames.lean ====
section
/-! SUPPORT. Frames: what each shared operation leaves unchanged. -/

namespace Sys2Proof.Machine

variable (s : State)

/-- A claim about every piece of state, piece by piece. -/
theorem forall_field {P : Field → Prop} :
    (∀ f, P f) ↔ P .v ∧ P .i ∧ P .pc ∧ P .stack ∧ P .dt ∧ P .st ∧ P .mem ∧ P .fb ∧ P .draw ∧ P .key ∧
      P .lastKey ∧ P .status ∧ P .romImg ∧ P .draws :=
  ⟨fun h => ⟨h _, h _, h _, h _, h _, h _, h _, h _, h _, h _, h _, h _, h _, h _⟩,
   fun ⟨h1, h2, h3, h4, h5, h6, h7, h8, h9, h10, h11, h12, h13, h14⟩ f => by cases f <;> assumption⟩

/-- Reading a key looks at KEY alone. -/
theorem State.keyDown_congr {s t : State} (h : t.key = s.key) (k : Key) : t.keyDown k = s.keyDown k := by
  simp [State.keyDown, h]

theorem sameExcept_setReg (x : Reg) (b : Byte) : SameExcept [.v] s (s.setReg x b) := by
  simp [SameExcept, forall_field, Field.Same, State.keyDown]

theorem sameRegsExcept_setReg (x : Reg) (b : Byte) : SameRegsExcept [x] s (s.setReg x b) := by
  intro r hr
  simp only [List.mem_singleton] at hr
  simp [State.reg_setReg, hr]

theorem sameExcept_resultThenFlag (x : Reg) (res fl : Byte) : SameExcept [.v] s (s.resultThenFlag x res fl) := by
  simp [SameExcept, forall_field, Field.Same, State.keyDown, State.resultThenFlag]

theorem sameRegsExcept_resultThenFlag (x : Reg) (res fl : Byte) :
    SameRegsExcept [x, vf] s (s.resultThenFlag x res fl) := by
  intro r hr
  simp only [List.mem_cons, List.not_mem_nil, or_false, not_or] at hr
  simp [State.reg_resultThenFlag, hr]

theorem sameExcept_flagThenResult (x : Reg) (fl : Byte) (res : State → Byte) :
    SameExcept [.v] s (s.flagThenResult x fl res) := by
  simp [SameExcept, forall_field, Field.Same, State.keyDown, State.flagThenResult]

theorem sameRegsExcept_flagThenResult (x : Reg) (fl : Byte) (res : State → Byte) :
    SameRegsExcept [x, vf] s (s.flagThenResult x fl res) := by
  intro r hr
  simp only [List.mem_cons, List.not_mem_nil, or_false, not_or] at hr
  simp [State.reg_flagThenResult, hr]

theorem sameExcept_maskDraw (x : Reg) (kk r : Byte) : SameExcept [.v, .draws] s (s.maskDraw x kk r) := by
  simp [SameExcept, forall_field, Field.Same, State.keyDown, State.maskDraw]

theorem sameExcept_setI (a : Addr) : SameExcept [.i] s (s.setI a) := by
  simp [SameExcept, forall_field, Field.Same, State.keyDown]

theorem sameExcept_setPc (a : Addr) : SameExcept [.pc] s (s.setPc a) := by
  simp [SameExcept, forall_field, Field.Same, State.keyDown]

theorem sameExcept_skipIf (c : Bool) : SameExcept [.pc] s (s.skipIf c) := by
  rw [State.skipIf_eq]; exact sameExcept_setPc _ _

theorem sameExcept_writeAtIndex (bs : List Byte) : SameExcept [.mem] s (s.writeAtIndex bs) := by
  simp [SameExcept, forall_field, Field.Same, State.keyDown, State.writeAtIndex]

theorem sameExcept_loadRegsUpTo (x : Reg) : SameExcept [.v] s (s.loadRegsUpTo x) := by
  simp [SameExcept, forall_field, Field.Same, State.keyDown, State.loadRegsUpTo]

theorem sameExcept_tick60 : SameExcept [.dt, .st] s s.tick60 := by
  simp [SameExcept, forall_field, Field.Same, State.keyDown, State.tick60]

theorem sameExcept_release (k : Key) : SameExcept [.key] s (s.release k) := by
  simp [SameExcept, forall_field, Field.Same, State.release, State.setKey, State.reg]

theorem sameExcept_copyRom (bytes : List Byte) : SameExcept [.mem, .pc, .romImg] s (s.copyRom bytes) := by
  simp [SameExcept, forall_field, Field.Same, State.keyDown, State.copyRom]

/-- A timer counts down by one and stops at 0 (60_exceptions.md R190). -/
theorem toNat_countDown (b : Byte) : (countDown b).toNat = b.toNat - 1 := by
  unfold countDown
  split
  · next h => subst h; rfl
  · next h =>
    have hb : b.toNat ≠ 0 := fun e => h (BitVec.eq_of_toNat_eq (by simpa using e))
    rw [BitVec.toNat_sub]
    have := b.isLt
    simp
    omega

end Sys2Proof.Machine
end

