-- ==== Sys2Proof/Laws/PerInstr.lean ====
section
/-! SUPPORT. Per-instruction laws: every instruction encodes to an opcode that the table of 30_encoding.md R65 does not list as illegal. -/

namespace Sys2Proof.Laws.EncodesLegally

/-- The opcode of an instruction is legal by the family table of 30_encoding.md R65. -/
def Statement (i : Instr) : Prop := legalOpcode (encode i) = true

/-- Legality of an opcode of any family without illegal opcodes (30_encoding.md R65, last row). -/
theorem legal_of_family {op : Opcode} (h : ∀ d ∈ [0, 5, 8, 9, 14, 15], op.toNat / 4096 ≠ d) : legalOpcode op = true := by
  unfold legalOpcode
  split <;> simp_all

theorem legal_nnn {f : Fin 16} (nnn : Addr) (hf : f.val ∉ [0, 5, 8, 9, 14, 15]) : legalOpcode (formatNnn f nnn) = true := by
  refine legal_of_family fun d hd h => hf ?_
  rw [toNat_formatNnn] at h
  rwa [show f.val = d by omega]

theorem legal_xkk {f : Fin 16} (x : Reg) (kk : Byte) (hf : f.val ∉ [0, 5, 8, 9, 14, 15]) :
    legalOpcode (formatXkk f x kk) = true := by
  refine legal_of_family fun d hd h => hf ?_
  rw [toNat_formatXkk] at h
  rwa [show f.val = d by omega]

/-- Families 5, 8, 9 and D: what the table asks of the low nibble. -/
theorem legal_xyn {f n : Fin 16} (x y : Reg)
    (h : (f.val = 5 ∧ n.val = 0) ∨ (f.val = 9 ∧ n.val = 0) ∨ f.val = 13 ∨ (f.val = 8 ∧ (n.val ≤ 7 ∨ n.val = 14))) :
    legalOpcode (formatXyn f x y n) = true := by
  have h1 : (formatXyn f x y n).toNat / 4096 = f.val := by rw [toNat_formatXyn]; omega
  have h2 : (formatXyn f x y n).toNat % 16 = n.val := by rw [toNat_formatXyn]; omega
  unfold legalOpcode
  rw [h1, h2]
  rcases h with ⟨hf, hn⟩ | ⟨hf, hn⟩ | hf | ⟨hf, hn⟩ <;> rw [hf]
  · simp [hn]
  · simp [hn]
  · rfl
  · simpa using hn

/-- Families E and F: what the table asks of the low byte. -/
theorem legal_xff {f : Fin 16} (x : Reg) (kk : Byte)
    (h : (f.val = 14 ∧ [0x9E, 0xA1].contains kk.toNat = true) ∨
      (f.val = 15 ∧ [0x07, 0x0A, 0x15, 0x18, 0x1E, 0x29, 0x33, 0x55, 0x65].contains kk.toNat = true)) :
    legalOpcode (formatXkk f x kk) = true := by
  have h1 : (formatXkk f x kk).toNat / 4096 = f.val := by rw [toNat_formatXkk]; omega
  have h2 : (formatXkk f x kk).toNat % 256 = kk.toNat := by rw [toNat_formatXkk]; omega
  unfold legalOpcode
  rw [h1, h2]
  rcases h with ⟨hf, hk⟩ | ⟨hf, hk⟩ <;> rw [hf] <;> exact hk

theorem cls : Statement (.cls) := by unfold Statement; decide
theorem ret : Statement (.ret) := by unfold Statement; decide
theorem jp (nnn : Addr) : Statement (.jp nnn) := legal_nnn nnn (by decide)
theorem call (nnn : Addr) : Statement (.call nnn) := legal_nnn nnn (by decide)
theorem seImm (x : Reg) (kk : Byte) : Statement (.seImm x kk) := legal_xkk x kk (by decide)
theorem sneImm (x : Reg) (kk : Byte) : Statement (.sneImm x kk) := legal_xkk x kk (by decide)
theorem seReg (x y : Reg) : Statement (.seReg x y) := legal_xyn x y (by decide)
theorem ldImm (x : Reg) (kk : Byte) : Statement (.ldImm x kk) := legal_xkk x kk (by decide)
theorem addImm (x : Reg) (kk : Byte) : Statement (.addImm x kk) := legal_xkk x kk (by decide)
theorem ldReg (x y : Reg) : Statement (.ldReg x y) := legal_xyn x y (by decide)
theorem or (x y : Reg) : Statement (.or x y) := legal_xyn x y (by decide)
theorem and (x y : Reg) : Statement (.and x y) := legal_xyn x y (by decide)
theorem xor (x y : Reg) : Statement (.xor x y) := legal_xyn x y (by decide)
theorem addReg (x y : Reg) : Statement (.addReg x y) := legal_xyn x y (by decide)
theorem sub (x y : Reg) : Statement (.sub x y) := legal_xyn x y (by decide)
theorem shr (x y : Reg) : Statement (.shr x y) := legal_xyn x y (by decide)
theorem subn (x y : Reg) : Statement (.subn x y) := legal_xyn x y (by decide)
theorem shl (x y : Reg) : Statement (.shl x y) := legal_xyn x y (by decide)
theorem sneReg (x y : Reg) : Statement (.sneReg x y) := legal_xyn x y (by decide)
theorem ldIndex (nnn : Addr) : Statement (.ldIndex nnn) := legal_nnn nnn (by decide)
theorem jpV0 (nnn : Addr) : Statement (.jpV0 nnn) := legal_nnn nnn (by decide)
theorem rnd (x : Reg) (kk : Byte) : Statement (.rnd x kk) := legal_xkk x kk (by decide)
theorem drw (x y : Reg) (n : Fin 16) : Statement (.drw x y n) := legal_xyn x y (by simp)
theorem skp (x : Reg) : Statement (.skp x) := legal_xff x _ (by decide)
theorem sknp (x : Reg) : Statement (.sknp x) := legal_xff x _ (by decide)
theorem ldVxDt (x : Reg) : Statement (.ldVxDt x) := legal_xff x _ (by decide)
theorem ldVxKey (x : Reg) : Statement (.ldVxKey x) := legal_xff x _ (by decide)
theorem ldDtVx (x : Reg) : Statement (.ldDtVx x) := legal_xff x _ (by decide)
theorem ldStVx (x : Reg) : Statement (.ldStVx x) := legal_xff x _ (by decide)
theorem addIndex (x : Reg) : Statement (.addIndex x) := legal_xff x _ (by decide)
theorem ldFont (x : Reg) : Statement (.ldFont x) := legal_xff x _ (by decide)
theorem ldBcd (x : Reg) : Statement (.ldBcd x) := legal_xff x _ (by decide)
theorem stRegs (x : Reg) : Statement (.stRegs x) := legal_xff x _ (by decide)
theorem ldRegs (x : Reg) : Statement (.ldRegs x) := legal_xff x _ (by decide)

end Sys2Proof.Laws.EncodesLegally
end

