-- ==== Sys2Proof/Tests/Slice0.lean ====
section
/-! SUPPORT. Tests of the model against the spec's encodings and vectors (95_test_vectors.md, whose ids F1, A1, … are given), and a witness for the hypotheses of every statement. -/

namespace Sys2Proof.Tests

open Sys2Proof Sys2Proof.Machine

/-! ### Smoke tests of WellFormed: one ill-formed term for each check -/

theorem test_legalOpcode_refuses_family_0 : legalOpcode 0x00E1 = false ∧ legalOpcode 0x0000 = false := by decide
theorem test_legalOpcode_refuses_family_5 : legalOpcode 0x5121 = false := by decide
theorem test_legalOpcode_refuses_family_8 : legalOpcode 0x8128 = false ∧ legalOpcode 0x812F = false := by decide
theorem test_legalOpcode_refuses_family_9 : legalOpcode 0x9121 = false := by decide
theorem test_legalOpcode_refuses_family_E : legalOpcode 0xE000 = false ∧ legalOpcode 0xE19F = false := by decide
theorem test_legalOpcode_refuses_family_F : legalOpcode 0xF175 = false ∧ legalOpcode 0xFFFF = false := by decide
theorem test_legalOpcode_accepts : legalOpcode 0xE1A1 = true ∧ legalOpcode 0x812E = true := by decide
theorem test_row_refuses_fixed_nibble : OpcodeRow.matches ⟨"SE_REG", 0x5000, 0xF00F⟩ 0x5121 = false := by decide
theorem test_romFits_refuses_3585 : romFits (List.replicate 3585 0xAB) = false := by
  rw [romFits, List.length_replicate]; decide
theorem test_romFits_accepts_3584 : romFits (List.replicate 3584 0xAB) = true := by
  rw [romFits, List.length_replicate]; decide
theorem test_wf_refuses_unsorted : Memory.wf [(0x301, 1), (0x300, 1)] = false := by decide
theorem test_wf_refuses_repeat : Memory.wf [(0x300, 1), (0x300, 2)] = false := by decide
theorem test_wf_refuses_unlisted_value : Memory.wf [(0x300, 0)] = false ∧ Memory.wf [(0, 0xF0)] = false := by decide
theorem test_wf_refuses_beyond_memory : Memory.wf [(4096, 1)] = false := by decide

/-! ### Decoding: every constructor, by a word written out from 30_encoding.md R64 -/

theorem test_decode_cls : decode 0b0000_0000_1110_0000#16 = .ok .cls := by decide
theorem test_decode_ret : decode 0b0000_0000_1110_1110#16 = .ok .ret := by decide
theorem test_decode_jp : decode 0b0001_1010_1011_1100#16 = .ok (.jp 0xABC) := by decide
theorem test_decode_call : decode 0b0010_0011_0000_0000#16 = .ok (.call 0x300) := by decide
theorem test_decode_seImm : decode 0b0011_1010_0000_0101#16 = .ok (.seImm 0xA 5) := by decide
theorem test_decode_sneImm : decode 0b0100_1010_0000_0101#16 = .ok (.sneImm 0xA 5) := by decide
theorem test_decode_seReg : decode 0b0101_0001_0010_0000#16 = .ok (.seReg 1 2) := by decide
theorem test_decode_ldImm : decode 0b0110_1010_0010_1011#16 = .ok (.ldImm 0xA 0x2B) := by decide
theorem test_decode_addImm : decode 0b0111_0001_0000_0101#16 = .ok (.addImm 1 5) := by decide
theorem test_decode_ldReg : decode 0b1000_0001_0010_0000#16 = .ok (.ldReg 1 2) := by decide
theorem test_decode_or : decode 0b1000_0001_0010_0001#16 = .ok (.or 1 2) := by decide
theorem test_decode_and : decode 0b1000_0001_0010_0010#16 = .ok (.and 1 2) := by decide
theorem test_decode_xor : decode 0b1000_0001_0010_0011#16 = .ok (.xor 1 2) := by decide
theorem test_decode_addReg : decode 0b1000_0001_0010_0100#16 = .ok (.addReg 1 2) := by decide
theorem test_decode_sub : decode 0b1000_0001_0010_0101#16 = .ok (.sub 1 2) := by decide
theorem test_decode_shr : decode 0b1000_0001_0010_0110#16 = .ok (.shr 1 2) := by decide
theorem test_decode_subn : decode 0b1000_0001_0010_0111#16 = .ok (.subn 1 2) := by decide
theorem test_decode_shl : decode 0b1000_0001_0010_1110#16 = .ok (.shl 1 2) := by decide
theorem test_decode_sneReg : decode 0b1001_0001_0010_0000#16 = .ok (.sneReg 1 2) := by decide
theorem test_decode_ldIndex : decode 0b1010_0010_1111_0000#16 = .ok (.ldIndex 0x2F0) := by decide
theorem test_decode_jpV0 : decode 0b1011_0011_0000_0000#16 = .ok (.jpV0 0x300) := by decide
theorem test_decode_rnd : decode 0b1100_0001_0000_1111#16 = .ok (.rnd 1 0x0F) := by decide
theorem test_decode_drw : decode 0b1101_0000_0001_0101#16 = .ok (.drw 0 1 5) := by decide
theorem test_decode_skp : decode 0b1110_0001_1001_1110#16 = .ok (.skp 1) := by decide
theorem test_decode_sknp : decode 0b1110_0001_1010_0001#16 = .ok (.sknp 1) := by decide
theorem test_decode_ldVxDt : decode 0b1111_0010_0000_0111#16 = .ok (.ldVxDt 2) := by decide
theorem test_decode_ldVxKey : decode 0b1111_0011_0000_1010#16 = .ok (.ldVxKey 3) := by decide
theorem test_decode_ldDtVx : decode 0b1111_0010_0001_0101#16 = .ok (.ldDtVx 2) := by decide
theorem test_decode_ldStVx : decode 0b1111_0010_0001_1000#16 = .ok (.ldStVx 2) := by decide
theorem test_decode_addIndex : decode 0b1111_0001_0001_1110#16 = .ok (.addIndex 1) := by decide
theorem test_decode_ldFont : decode 0b1111_0000_0010_1001#16 = .ok (.ldFont 0) := by decide
theorem test_decode_ldBcd : decode 0b1111_0000_0011_0011#16 = .ok (.ldBcd 0) := by decide
theorem test_decode_stRegs : decode 0b1111_0011_0101_0101#16 = .ok (.stRegs 3) := by decide
theorem test_decode_ldRegs : decode 0b1111_0011_0110_0101#16 = .ok (.ldRegs 3) := by decide

theorem test_decode_refuses_by_name : decode 0x0123 = .error (.invalidOpcode 0x0123) := by decide
theorem test_decodeBytes_refuses_one_byte : decodeBytes [0x60] = .error .truncated := by decide
/-- High byte first (20_memory.md R43): the bytes 60 05 of the source's example ROM. -/
theorem test_decodeBytes_high_byte_first : decodeBytes [0x60, 0x05, 0x61] = .ok (.ldImm 0 5, [0x61]) := by decide
theorem test_decodeTableWord : decodeTableWord 16 0x6005 = some (.ldImm 0 5) := by decide
theorem test_decodeTableWord_refuses : decodeTableWord 16 0x5121 = none := by decide

/-! ### One step on a small state -/

/-- The reset state changed by `edit`, with one opcode placed at its PC (95_test_vectors.md, conventions). -/
def vector (op : Nat) (edit : State → State) : State := (edit State.reset).withFetchWord 16 op

/-- The step completes and its next state passes `check`. -/
def steps (s : State) (check : State → Bool) : Bool :=
  match step s with
  | .next t => check t
  | .fault _ | .refused _ => false

/-- The step ends in the fault `f`. -/
def faults (s : State) (f : Fault) : Bool :=
  match step s with
  | .fault g => decide (g = f)
  | .next _ | .refused _ => false

/-- Bytes placed in memory. -/
def poke (a : Addr) (bs : List Byte) (s : State) : State := s.setMem (s.mem.writeBlock a bs)

/-- How many pixels are on. -/
def lit (s : State) : Nat := (s.fb.toList.map fun row => row.toList.count true).sum

-- F1, F2
theorem test_jp : steps (vector 0x1ABC id) (fun t => t.pc == 0xABC) = true := by decide
theorem test_jp_idle : step (vector 0x1200 id) = .next (vector 0x1200 id) := by rfl
-- F3, F5
theorem test_call : steps (vector 0x2300 id) (fun t => t.pc == 0x300 && t.stack == [0x202]) = true := by decide
theorem test_call_pushes_wrapped :
    steps (vector 0x2400 (·.setPc 0xFFE)) (fun t => t.pc == 0x400 && t.stack == [0x000]) = true := by decide
-- F4
theorem test_ret :
    steps (vector 0x00EE fun s => (s.setPc 0x300).setStack [0x202]) (fun t => t.pc == 0x202 && t.stack == []) = true := by
  decide
-- F7
theorem test_jpV0_wraps : steps (vector 0xBFFF (·.setReg 0 0xFF)) (fun t => t.pc == 0x0FE) = true := by decide
-- F10, F19
theorem test_seImm_not_taken : steps (vector 0x3155 (·.setReg 1 0x54)) (fun t => t.pc == 0x202) = true := by decide
theorem test_seImm_wraps : steps (vector 0x3000 (·.setPc 0xFFE)) (fun t => t.pc == 0x002) = true := by decide
-- F11, F12
theorem test_sneImm_not_taken : steps (vector 0x4155 (·.setReg 1 0x55)) (fun t => t.pc == 0x202) = true := by decide
theorem test_sneImm_taken : steps (vector 0x4155 (·.setReg 1 0x54)) (fun t => t.pc == 0x204) = true := by decide
-- F13, F14
theorem test_seReg_taken :
    steps (vector 0x5120 fun s => (s.setReg 1 9).setReg 2 9) (fun t => t.pc == 0x204) = true := by decide
theorem test_seReg_not_taken :
    steps (vector 0x5120 fun s => (s.setReg 1 9).setReg 2 8) (fun t => t.pc == 0x202) = true := by decide
-- F16, F17
theorem test_sneReg_taken :
    steps (vector 0x9120 fun s => (s.setReg 1 9).setReg 2 8) (fun t => t.pc == 0x204) = true := by decide
theorem test_sneReg_same_register : steps (vector 0x9110 (·.setReg 1 9)) (fun t => t.pc == 0x202) = true := by decide
-- F6: an odd PC at the top of memory
theorem test_fetch_wraps :
    steps ((State.reset.setPc 0xFFF).setMem ((State.reset.mem.write 0xFFF 0x61).write 0x000 0x07))
      (fun t => t.pc == 0x001 && t.reg 1 == 7) = true := by decide

-- A28, A27
theorem test_ldImm : steps (vector 0x63FF id) (fun t => t.reg 3 == 0xFF && t.pc == 0x202) = true := by decide
theorem test_ldImm_vf : steps (vector 0x6FAB (·.setReg vf 1)) (fun t => t.reg vf == 0xAB) = true := by decide
-- A25, A26
theorem test_addImm_wraps :
    steps (vector 0x7101 fun s => (s.setReg 1 0xFF).setReg vf 0x42) (fun t => t.reg 1 == 0 && t.reg vf == 0x42) = true := by
  decide
theorem test_addImm_vf : steps (vector 0x7FFF (·.setReg vf 2)) (fun t => t.reg vf == 1) = true := by decide
-- A23
theorem test_ldReg :
    steps (vector 0x8120 fun s => ((s.setReg 1 1).setReg 2 0x77).setReg vf 0x42)
      (fun t => t.reg 1 == 0x77 && t.reg 2 == 0x77 && t.reg vf == 0x42) = true := by decide
-- A51
theorem test_or_reads_old_vf :
    steps (vector 0x81F1 fun s => (s.setReg 1 0x55).setReg vf 0xAA) (fun t => t.reg 1 == 0xFF && t.reg vf == 0) = true := by
  decide
-- A20, A52
theorem test_and :
    steps (vector 0x8122 fun s => ((s.setReg 1 0xF0).setReg 2 0x3C).setReg vf 1)
      (fun t => t.reg 1 == 0x30 && t.reg vf == 0) = true := by decide
theorem test_and_vf :
    steps (vector 0x8F12 fun s => (s.setReg vf 0xFF).setReg 1 0xFF) (fun t => t.reg vf == 0) = true := by decide
-- A21
theorem test_xor :
    steps (vector 0x8123 fun s => ((s.setReg 1 0xF0).setReg 2 0x3C).setReg vf 1)
      (fun t => t.reg 1 == 0xCC && t.reg vf == 0) = true := by decide
-- A1, A34
theorem test_addReg_carry :
    steps (vector 0x8124 fun s => ((s.setReg 1 0xFF).setReg 2 1).setReg vf 0x55)
      (fun t => t.reg 1 == 0 && t.reg 2 == 1 && t.reg vf == 1) = true := by decide
theorem test_addReg_reads_old_vf :
    steps (vector 0x81F4 fun s => (s.setReg 1 0xF0).setReg vf 0x20) (fun t => t.reg 1 == 0x10 && t.reg vf == 1) = true := by
  decide
-- A6, A37
theorem test_sub_borrow :
    steps (vector 0x8125 fun s => (s.setReg 1 5).setReg 2 6) (fun t => t.reg 1 == 0xFF && t.reg vf == 0) = true := by decide
theorem test_sub_into_vf :
    steps (vector 0x8F15 fun s => (s.setReg vf 0x50).setReg 1 0x20) (fun t => t.reg vf == 0xE1) = true := by decide
-- A10, A45
theorem test_subn :
    steps (vector 0x8127 fun s => (s.setReg 1 5).setReg 2 6)
      (fun t => t.reg 1 == 1 && t.reg 2 == 6 && t.reg vf == 1) = true := by decide
theorem test_subn_reads_new_vf :
    steps (vector 0x81F7 fun s => (s.setReg 1 0x10).setReg vf 0x20) (fun t => t.reg 1 == 0xF1 && t.reg vf == 1) = true := by
  decide
-- A13, A47
theorem test_shr_ignores_y :
    steps (vector 0x8126 fun s => (s.setReg 1 5).setReg 2 0xFF)
      (fun t => t.reg 1 == 2 && t.reg 2 == 0xFF && t.reg vf == 1) = true := by decide
theorem test_shr_vf : steps (vector 0x8F06 (·.setReg vf 0xFF)) (fun t => t.reg vf == 0) = true := by decide
-- A16, A48
theorem test_shl_ignores_y :
    steps (vector 0x812E fun s => (s.setReg 1 0x81).setReg 2 0xFF)
      (fun t => t.reg 1 == 2 && t.reg 2 == 0xFF && t.reg vf == 1) = true := by decide
theorem test_shl_vf : steps (vector 0x8F0E (·.setReg vf 0xFF)) (fun t => t.reg vf == 2) = true := by decide
-- A29 (the draw given), A30 (any draw)
theorem test_rnd_masks_the_draw : (State.reset.maskDraw 1 0x0F 0xB7).reg 1 = 0x07 := by decide
theorem test_rnd_zero_mask (r : Byte) : (State.reset.maskDraw 1 0x00 r).reg 1 = 0 :=
  (by decide : ∀ r : Byte, (State.reset.maskDraw 1 0x00 r).reg 1 = 0) r

-- M1
theorem test_ldIndex : steps (vector 0xAFFF id) (fun t => t.i == 0xFFF) = true := by decide
-- M2
theorem test_addIndex_wraps :
    steps (vector 0xF11E fun s => (s.setI 0xFF0).setReg 1 0x20) (fun t => t.i == 0x010 && t.reg vf == 0) = true := by decide
-- M3, M3b
theorem test_ldFont : steps (vector 0xF129 (·.setReg 1 0x0A)) (fun t => t.i == 0x032) = true := by decide
theorem test_ldFont_whole_register : steps (vector 0xF129 (·.setReg 1 0xFF)) (fun t => t.i == 0x4FB) = true := by decide
-- M4, M6
theorem test_ldBcd :
    steps (vector 0xF133 fun s => (s.setReg 1 234).setI 0x300)
      (fun t => t.mem.readBlock 0x300 3 == [2, 3, 4] && t.i == 0x300) = true := by decide
theorem test_ldBcd_wraps :
    steps (vector 0xF133 fun s => (s.setReg 1 255).setI 0xFFF) (fun t => t.mem.readBlock 0xFFF 3 == [2, 5, 5]) = true := by
  decide
-- M8, M10
theorem test_stRegs :
    steps (vector 0xF355 fun s => ((((s.setReg 0 0x11).setReg 1 0x22).setReg 2 0x33).setReg 3 0x44).setI 0x300)
      (fun t => t.mem.readBlock 0x300 5 == [0x11, 0x22, 0x33, 0x44, 0x00] && t.i == 0x304) = true := by decide
theorem test_stRegs_wraps :
    steps (vector 0xF355 fun s => ((((s.setReg 0 0xA1).setReg 1 0xA2).setReg 2 0xA3).setReg 3 0xA4).setI 0xFFE)
      (fun t => t.mem.readBlock 0xFFE 4 == [0xA1, 0xA2, 0xA3, 0xA4] && t.i == 0x002) = true := by decide
-- M8b, M12
theorem test_ldRegs :
    steps (vector 0xF365 fun s => poke 0x300 [0x11, 0x22, 0x33, 0x44] (s.setI 0x300))
      (fun t => t.regsUpTo 4 == [0x11, 0x22, 0x33, 0x44, 0x00] && t.i == 0x304) = true := by decide
theorem test_ldRegs_all :
    steps (vector 0xFF65 fun s => poke 0x40E [0x1E, 0x1F] (s.setI 0x400))
      (fun t => t.reg 14 == 0x1E && t.reg vf == 0x1F && t.i == 0x410) = true := by decide

-- G1
theorem test_cls :
    steps (vector 0x00E0 fun s => (s.setFb ((s.fb.setPixel 6 5 true).setPixel 31 63 true)).setReg vf 7)
      (fun t => lit t == 0 && t.draw && t.reg vf == 7) = true := by decide
-- G3
theorem test_drw_wraps_columns :
    steps (vector 0xD011 fun s => poke 0x300 [0xFF] ((s.setReg 0 60).setI 0x300))
      (fun t => t.fb.pixel 0 60 && t.fb.pixel 0 63 && t.fb.pixel 0 0 && t.fb.pixel 0 3 && lit t == 8 && t.draw
        && t.reg vf == 0) = true := by decide
-- G11 with its pixel already on: VF is read as the column before it is written
theorem test_drw_vf_is_column_then_collision :
    steps (vector 0xDF11 fun s => poke 0x300 [0xC0]
        (((s.setReg vf 10).setReg 1 3).setI 0x300 |>.setFb (s.fb.setPixel 3 10 true)))
      (fun t => !t.fb.pixel 3 10 && t.fb.pixel 3 11 && lit t == 1 && t.reg vf == 1) = true := by decide

-- K1, K5
theorem test_skp_taken : steps (vector 0xE19E fun s => (s.setKey 5 true).setReg 1 5) (fun t => t.pc == 0x204) = true := by
  decide
theorem test_skp_low_nibble :
    steps (vector 0xE19E fun s => (s.setKey 5 true).setReg 1 0x25) (fun t => t.pc == 0x204) = true := by decide
-- K3, K4
theorem test_sknp_not_taken :
    steps (vector 0xE1A1 fun s => (s.setKey 5 true).setReg 1 5) (fun t => t.pc == 0x202) = true := by decide
theorem test_sknp_taken : steps (vector 0xE1A1 (·.setReg 1 5)) (fun t => t.pc == 0x204) = true := by decide
-- K6
theorem test_ldVxDt : steps (vector 0xF107 (·.setDt 0x3C)) (fun t => t.reg 1 == 0x3C && t.dt == 0x3C) = true := by decide
-- K7
theorem test_ldDtVx : steps (vector 0xF115 (·.setReg 1 0xFF)) (fun t => t.dt == 0xFF && t.st == 0) = true := by decide
-- K8
theorem test_ldStVx : steps (vector 0xF118 (·.setReg 1 2)) (fun t => t.st == 2 && t.dt == 0) = true := by decide
-- K15
theorem test_ldVxKey :
    steps (vector 0xF30A fun s => ((s.setReg 3 0x99).setKey 2 true).setLastKey (some 2))
      (fun t => t.status == .awaitingKey 3 && t.pc == 0x202 && t.reg 3 == 0x99 && t.lastKey == none) = true := by decide

/-- F22, K16: a machine at a key wait on V3. -/
def waiting : State := (State.reset.setPc 0x202).setStatus (.awaitingKey 3)
theorem test_step_waits : waiting.deliver Config.font .step = (waiting, .waiting) := by rfl
-- K19
theorem test_press_ends_the_wait :
    ((waiting.deliver Config.font (.press 0xC)).1.reg 3 = 0x0C) ∧ (waiting.deliver Config.font (.press 0xC)).1.status = .running ∧
    (waiting.deliver Config.font (.press 0xC)).1.pc = 0x202 := by decide
-- K18
theorem test_release_does_not : (waiting.deliver Config.font (.release 2)).1.status = .awaitingKey 3 := by decide
-- K9, K10, K11
theorem test_tick : (((State.reset.setDt 2).setSt 2).deliver Config.font .tick60).1.dt = 1 ∧
    (((State.reset.setDt 2).setSt 2).deliver Config.font .tick60).2 = .done := by decide
theorem test_tick_asks_for_a_tone : ((State.reset.setSt 1).deliver Config.font .tick60).1.st = 0 ∧
    ((State.reset.setSt 1).deliver Config.font .tick60).2 = .toneRequest := by decide
theorem test_tick_clamps : (State.reset.deliver Config.font .tick60).1.dt = 0 ∧ (State.reset.deliver Config.font .tick60).2 = .done := by decide
-- K20
theorem test_takeDrawFlag : ((State.reset.setDraw true).deliver Config.font .takeDrawFlag).2 = .drawFlag true ∧
    ((State.reset.setDraw true).deliver Config.font .takeDrawFlag).1.draw = false := by decide

-- K15, K16: what the host gets back, STATUS included
theorem test_report_of_ldVxKey : (vector 0xF30A id).report Config.font .step = ⟨.ok, .awaitingKey 3⟩ := by decide
theorem test_report_of_a_wait : waiting.report Config.font .step = ⟨.waiting, .awaitingKey 3⟩ := by decide
-- K12, as an infinite schedule of ticks
theorem test_ticks_for_ever : ((State.reset.setSt 3).stateAt Config.font (fun _ => .tick60) 3).st = 0 ∧
    ((State.reset.setSt 3).reportAt Config.font (fun _ => .tick60) 2).response = .toneRequest ∧
    ((State.reset.setSt 3).reportAt Config.font (fun _ => .tick60) 3).response = .done := by decide
/-- 20_memory.md R48 with another FONT. -/
theorem test_fresh_with_another_font : (State.fresh (Vector.replicate 80 0x11)).mem.read 0x04F = 0x11 ∧
    (State.fresh (Vector.replicate 80 0x11)).mem.read 0x050 = 0x00 := by
  simp [State.fresh, constructByte]

-- X1, X2, X3, X3b, X7
theorem test_fault_zeroed_memory : faults State.reset (.invalidOpcode 0x0000 0x200) = true := by decide
theorem test_fault_ret_on_empty_stack : faults (vector 0x00EE id) (.stackUnderflow 0x00EE 0x200) = true := by decide
theorem test_fault_call_on_full_stack :
    faults (vector 0x2400 fun s => (s.setPc 0x300).setStack (List.replicate 16 0x202))
      (.stackOverflow 0x2400 0x300) = true := by decide
theorem test_call_of_last_level :
    steps (vector 0x2400 fun s => (s.setPc 0x300).setStack (List.replicate 15 0x202))
      (fun t => t.stack.length == 16 && t.stack.getLast? == some 0x302 && t.pc == 0x400) = true := by decide
theorem test_fault_illegal_opcode : faults (vector 0x8128 id) (.invalidOpcode 0x8128 0x200) = true := by decide
-- 60_exceptions.md R180: the codes
theorem test_fault_codes : faultCode (.invalidOpcode 0 0) = 1 ∧ faultCode (.stackUnderflow 0 0) = 2 ∧
    faultCode (.stackOverflow 0 0) = 3 ∧ faultCode (.romTooLarge 0) = 4 := by decide

-- L2
theorem test_loadRom_too_long (b : Byte) :
    State.reset.deliver Config.font (.loadRom (List.replicate 3585 b)) = (State.reset, .fault (.romTooLarge 3585)) := by
  rw [State.deliver, loadRom_of_too_long (by rw [List.length_replicate]; decide), List.length_replicate]; rfl
-- L4
theorem test_loadRom_odd_length :
    (State.reset.deliver Config.font (.loadRom [0x12, 0x00, 0xFF])).1.mem.readBlock 0x200 4 = [0x12, 0x00, 0xFF, 0x00] := by decide
-- L7: a load leaves the tail of a longer program and the registers
theorem test_loadRom_leaves_the_rest :
    ((State.reset.runSchedule Config.font [.loadRom [0x60, 0x37, 0x00, 0xEE], .step, .loadRom [0x60, 0xEA]]).mem.readBlock 0x200 4,
     (State.reset.runSchedule Config.font [.loadRom [0x60, 0x37, 0x00, 0xEE], .step, .loadRom [0x60, 0xEA]]).reg 0) =
      ([0x60, 0xEA, 0x00, 0xEE], 0x37) := by decide
-- L8, L9
theorem test_reset_without_a_load : State.reset.deliver Config.font .reset = (State.reset, .done) := by
  rw [State.deliver, State.resetKeepingRom, State.construct, fresh_default]; rfl
theorem test_reset_asks_for_no_tone : ((State.reset.setSt 5).deliver Config.font .reset).2 = .done ∧
    ((State.reset.setSt 5).deliver Config.font .reset).1.st = 0 := by decide

/-! ### Witnesses: for each statement with hypotheses, a state and operands that meet them, each clause at a boundary -/

theorem witness_EncodeOfDecode : decode 0x812E = .ok (.shl 1 2) := by decide

theorem witness_DecodesExactly_rows : ⟨"CLS", 0x00E0, 0xFFFF⟩ ∈ opcodeMap ∧ ⟨"LD_REGS", 0xF065, 0xF0FF⟩ ∈ opcodeMap ∧
    opcodeMap.length = 34 := by decide
theorem witness_DecodesExactly_invalid : State.reset.status = .running ∧
    ∀ row ∈ opcodeMap, State.reset.fetchOpcode &&& row.mask ≠ row.pattern := by decide

theorem witness_StepRuns : (vector 0x1200 (·.setPc 0xFFF)).status = .running ∧
    decode ((vector 0x1200 (·.setPc 0xFFF)).mem.read 0xFFF ++ (vector 0x1200 (·.setPc 0xFFF)).mem.read (0xFFF + 1)) =
      .ok (.jp 0x200) := by decide

theorem witness_StepInAKeyWait : waiting.status = .awaitingKey 3 := rfl

theorem witness_PcAfter_skip_wraps : (vector 0x3000 (·.setPc 0xFFC)).nextInstr = some (.seImm 0 0) ∧
    step (vector 0x3000 (·.setPc 0xFFC)) = .next ((vector 0x3000 (·.setPc 0xFFC)).setPc 0x000) := ⟨by decide, rfl⟩
theorem witness_PcAfter_ret : ∃ t, (vector 0x00EE (·.setStack [0x202])).nextInstr = some .ret ∧
    step (vector 0x00EE (·.setStack [0x202])) = .next t := ⟨_, by decide, rfl⟩
theorem witness_PcAfter_jpV0 : ∃ t, (vector 0xBFFF (·.setReg 0 0xFF)).nextInstr = some (.jpV0 0xFFF) ∧
    step (vector 0xBFFF (·.setReg 0 0xFF)) = .next t := ⟨_, by decide, rfl⟩

theorem witness_Frame_store : ∃ t, exec (.stRegs 15) (State.reset.setI 0xFFE) = .next t ∧
    ∀ k < instrStoreCount (.stRegs 15), (0x00E : Addr) ≠ (State.reset.setI 0xFFE).indexAddr k := ⟨_, rfl, by decide⟩
theorem witness_Frame_no_store : ∃ t, exec (.ldRegs 15) State.reset = .next t ∧ instrStoreCount (.ldRegs 15) = 0 :=
  ⟨_, rfl, rfl⟩

theorem witness_EveryStepKeeps : ∃ t, (vector 0x2400 (·.setStack (List.replicate 15 0))).Inv ∧
    step (vector 0x2400 (·.setStack (List.replicate 15 0))) = .next t :=
  ⟨_, ⟨by decide, by decide, by decide⟩, rfl⟩
theorem witness_EveryScheduleKeeps : State.reset.Inv := ⟨by decide, by decide, by decide⟩

/-- The register clauses of OR to SHL: neither register, y alone, x alone, both equal to 15. -/
theorem witness_register_clauses : ((14 : Reg) ≠ vf ∧ (0 : Reg) ≠ vf) ∧ ((14 : Reg) ≠ vf ∧ (15 : Reg) = vf) ∧
    ((15 : Reg) = vf ∧ (0 : Reg) ≠ vf) ∧ ((15 : Reg) = vf ∧ (15 : Reg) = vf) := by decide
/-- Equal operands (A5) and the largest borrow: the two sides of `a ≥ b`. -/
theorem witness_SubAndSubn : 5 = ((State.reset.setReg 1 5).reg 1).toNat ∧ 0 = ((State.reset.setReg 1 5).reg 2).toNat ∧
    255 = ((State.reset.setReg vf 255).reg vf).toNat := by decide

theorem witness_FlagTable_drw_collides : ∃ t, exec (.drw 0 1 1) (poke 0x300 [0x80]
      ((State.reset.setI 0x300).setFb (State.reset.fb.setPixel 0 0 true))) = .next t ∧
    (State.reset.fb.setPixel 0 0 true).pixel 0 0 = true ∧ t.fb.pixel 0 0 = false := ⟨_, rfl, by decide, by decide⟩
theorem witness_FlagTable_drw_misses : ∃ t, exec (.drw 0 1 0) State.reset = .next t ∧
    ∀ r c, State.reset.fb.pixel r c = true → t.fb.pixel r c = true := ⟨_, rfl, fun _ _ h => h⟩

/-- BCD at the top of memory: an address that is none of the three. -/
theorem witness_Bcd_other_address : (0x002 : Addr) ≠ 0xFFF ∧ (0x002 : Addr) ≠ 0xFFF + 1 ∧ (0x002 : Addr) ≠ 0xFFF + 2 := by
  decide
theorem witness_registers_up_to_x : (0 : Reg) ≤ 0 ∧ (15 : Reg) ≤ 15 ∧
    ∀ k : Reg, k ≤ 15 → (0x010 : Addr) ≠ State.reset.indexAddr k.val := by decide
theorem witness_StoredRegistersLoadBack : ∃ t u : State, exec (.stRegs 15) (State.reset.setI 0xFFE) = .next t ∧
    u.i = (State.reset.setI 0xFFE).i ∧ ∀ a, u.mem.read a = t.mem.read a :=
  ⟨_, (State.reset.setI 0xFFE).writeAtIndex ((State.reset.setI 0xFFE).regsUpTo 15), rfl, rfl, fun _ => rfl⟩
theorem witness_AStoreIsSeen_stRegs : ∃ t u, (exec (.stRegs 0) (State.reset.setI 0x200) = .next t ∧ (0 : Reg) ≤ 0) ∧
    exec (.stRegs 15) (State.reset.setI 0xFF8) = .next u ∧ (15 : Reg) ≤ 15 := ⟨_, _, ⟨rfl, by decide⟩, rfl, by decide⟩
theorem witness_AStoreIsSeen_ldBcd : ∃ t, exec (.ldBcd 1) ((State.reset.setReg 1 234).setI 0xFFF) = .next t ∧
    [(234 : Byte) / 100, 234 / 10 % 10, 234 % 10][0]? = some 2 ∧
    [(234 : Byte) / 100, 234 / 10 % 10, 234 % 10][2]? = some 4 := ⟨_, rfl, by decide, by decide⟩

theorem witness_JumpsSetPc_idle : (vector 0x1200 id).Idle := by unfold State.Idle; decide
theorem witness_CallAndRet_depth : (State.reset.setStack (List.replicate 15 0x202)).stack.length < 16 := by decide
theorem witness_Ret_pops : (State.reset.setStack [0x202, 0x300]).stack = [0x202] ++ [0x300] := rfl
theorem witness_Ret_underflows : (vector 0x00EE id).status = .running ∧ (vector 0x00EE id).fetchOpcode = 0x00EE ∧
    (vector 0x00EE id).stack = [] := by decide

/-- A sprite of 15 rows, its first pixel at the edge and its last past both edges. -/
theorem witness_SpriteCovers : (List.replicate 15 (0x81 : Byte)).length ≤ 15 ∧
    SpriteCovers 63 31 (List.replicate 15 0x81) 31 63 ∧ SpriteCovers 63 31 (List.replicate 15 0x81) 13 6 :=
  ⟨by decide, ⟨0, 0, 0x81, by decide⟩, ⟨14, 7, 0x81, by decide⟩⟩
theorem witness_SpriteCovers_not : ¬ SpriteCovers 0 0 [] 0 0 := by
  rintro ⟨k, b, row, h, _⟩; simp at h
theorem witness_Drw_rows : ([0x80] : List Byte) =
    (List.range (1 : Fin 16).val).map (fun k => (poke 0xFFF [0x80] (State.reset.setI 0xFFF)).mem.read
      ((poke 0xFFF [0x80] (State.reset.setI 0xFFF)).indexAddr k)) := by decide
theorem witness_Drw_no_rows : ([] : List Byte) =
    (List.range (0 : Fin 16).val).map (fun k => State.reset.mem.read (State.reset.indexAddr k)) := rfl
/-- The two sides of DRW's flag: a sprite bit on a 1, and none. -/
theorem witness_Drw_collision : SpriteCovers 0 0 [0x80] 0 0 ∧ (State.reset.fb.setPixel 0 0 true).pixel 0 0 = true ∧
    ∀ r c, SpriteCovers 0 0 [0x80] r c → State.reset.fb.pixel r c = false :=
  ⟨⟨0, 0, 0x80, by decide⟩, by decide, fun r c _ => Framebuffer.pixel_blank r c⟩

/-- Vx = 0x25 names key 5 (K5). -/
theorem witness_KeySkips : (5 : Key).val = ((State.reset.setReg 1 0x25).reg 1).toNat % 16 := by decide
theorem witness_AKeyWaitLasts : waiting.status = .awaitingKey 3 ∧
    (∀ j, Event.press j ∉ [Event.step, .tick60, .release 2]) ∧ Event.construct ∉ [Event.step, .tick60, .release 2] ∧
    Event.reset ∉ [Event.step, .tick60, .release 2] ∧ ∀ bytes, Event.loadRom bytes ∉ [Event.step, .tick60, .release 2] := by
  simp [waiting]
theorem witness_StatusChanges : ((vector 0xF30A id).report Config.font .step).status = .awaitingKey 3 ∧
    waiting.status = .awaitingKey 3 ∧ (waiting.report Config.font (.press 0)).status = .running ∧
    (waiting.report Config.font .reset).status = .running := by decide
/-- Two steps of an idle loop, which runs neither LD_DT_VX nor LD_ST_VX. -/
theorem witness_StepsNeverCount : Host.Core.run core 2 (vector 0x1200 id) = .next (vector 0x1200 id) ∧
    (∀ x, (vector 0x1200 id).nextInstr ≠ some (.ldDtVx x)) ∧ ∀ x, (vector 0x1200 id).nextInstr ≠ some (.ldStVx x) :=
  ⟨rfl, by decide, by decide⟩
theorem witness_Tick : (State.reset.setSt 1).st = 1 ∧ State.reset.st ≠ 1 := by decide
theorem witness_Press : State.reset.status = .running ∧ waiting.status = .awaitingKey 3 ∧ (0 : Key) ≠ 15 := by decide
theorem witness_Construct : (State.reset = State.reset ∧ Config.font = Config.font) ∧
    State.fresh (Vector.replicate 80 0x11) = State.fresh (Vector.replicate 80 0x11) ∧
    (0x04F : Addr).toNat < 0x50 ∧ ¬ (0x050 : Addr).toNat < 0x50 := ⟨⟨rfl, rfl⟩, rfl, by decide, by decide⟩
theorem witness_rom_that_fits : (List.replicate 3584 (0xAB : Byte)).length ≤ 3584 ∧ ([] : List Byte).length ≤ 3584 := by
  constructor
  · rw [List.length_replicate]
  · decide
theorem witness_rom_clauses : ([0x12, 0x00] : List Byte)[1]? = some 0x00 ∧ (0x1FF : Addr).toNat < 0x200 ∧
    0x200 + ([0x12, 0x00] : List Byte).length ≤ (0x202 : Addr).toNat := by decide
theorem witness_rom_too_long : (List.replicate 3585 (0xAB : Byte)).length > 3584 ∧
    (List.replicate 3584 (0xAB : Byte)).length = 3584 := by
  constructor <;> rw [List.length_replicate]
  decide
/-- Reset before any load, an event that keeps the image, and a schedule after a load. -/
theorem witness_ResetGivesBack : State.reset.romImg.length ≤ 3584 ∧
    (Event.press 4 ≠ .construct ∧ ∀ bytes, Event.press 4 ≠ .loadRom bytes) ∧ ([0x12, 0x00] : List Byte).length ≤ 3584 ∧
    Event.construct ∉ [Event.step, .press 4] ∧ ∀ bytes, Event.loadRom bytes ∉ [Event.step, .press 4] := by
  simp [State.reset]
theorem witness_AFault : (State.reset.deliver Config.font .step).2 = .fault (.invalidOpcode 0x0000 0x200) := by decide
/-- Another KEY is allowed at a JP, and the same KEY at a SKP. -/
theorem witness_HiddenState : (∀ x, (vector 0x1200 id).nextInstr ≠ some (.skp x) ∧
      (vector 0x1200 id).nextInstr ≠ some (.sknp x)) ∧
    (vector 0xE19E id).key = (vector 0xE19E id).key ∧ (vector 0xE19E id).nextInstr = some (.skp 1) :=
  ⟨by decide, rfl, by decide⟩

end Sys2Proof.Tests
end

section
/-! SUPPORT. Decoding by mask and match (30_encoding.md R63): a mask keeps the fields that select a row, and the
decoder chooses a row by those fields alone. -/

namespace Sys2Proof

/-! ### The fields a mask keeps -/

section
variable (f g x x' y y' n n' : Fin 16)

theorem nibble_and_nibble_15 : nibble f &&& nibble 15 = nibble f := BitVec.and_allOnes

theorem nibble_and_nibble_0 : nibble f &&& nibble 0 = nibble 0 := BitVec.and_zero

theorem formatNnn_and (nnn nnn' : Addr) :
    formatNnn f nnn &&& formatNnn g nnn' = (nibble f &&& nibble g) ++ (nnn &&& nnn') := BitVec.and_append

theorem formatXkk_and (kk kk' : Byte) : formatXkk f x kk &&& formatXkk g x' kk' =
    (nibble f &&& nibble g) ++ (nibble x &&& nibble x') ++ (kk &&& kk') :=
  BitVec.and_append.trans (congrArg (· ++ _) BitVec.and_append)

theorem formatXyn_and : formatXyn f x y n &&& formatXyn g x' y' n' =
    (nibble f &&& nibble g) ++ (nibble x &&& nibble x') ++ (nibble y &&& nibble y') ++ (nibble n &&& nibble n') :=
  BitVec.and_append.trans (congrArg (· ++ _) (BitVec.and_append.trans (congrArg (· ++ _) BitVec.and_append)))

end

section
variable (op : Opcode)

theorem and_FFFF : op &&& 0xFFFF = op := BitVec.and_allOnes

/-- The mask of formats NNN, XKK and XYN keeps the family. -/
theorem and_F000 : op &&& 0xF000 = formatNnn (family op) 0 :=
  calc op &&& 0xF000
    _ = formatNnn (family op) (fieldNnn op) &&& formatNnn 15 0 := by rw [formatNnn_fields]; rfl
    _ = formatNnn (family op) 0 := by rw [formatNnn_and, nibble_and_nibble_15]; simp [formatNnn]

/-- The mask of format XYF keeps the family and the low nibble. -/
theorem and_F00F : op &&& 0xF00F = formatXyn (family op) 0 0 (fieldN op) :=
  calc op &&& 0xF00F
    _ = formatXyn (family op) (fieldX op) (fieldY op) (fieldN op) &&& formatXyn 15 0 0 15 := by
      rw [formatXyn_fields]; rfl
    _ = formatXyn (family op) 0 0 (fieldN op) := by
      simp only [formatXyn_and, nibble_and_nibble_15, nibble_and_nibble_0]; rfl

/-- The mask of format XFF keeps the family and the low byte. -/
theorem and_F0FF : op &&& 0xF0FF = formatXkk (family op) 0 (fieldKk op) :=
  calc op &&& 0xF0FF
    _ = formatXkk (family op) (fieldX op) (fieldKk op) &&& formatXkk 15 0 (BitVec.allOnes 8) := by
      rw [formatXkk_fields]; rfl
    _ = formatXkk (family op) 0 (fieldKk op) := by
      simp only [formatXkk_and, nibble_and_nibble_15, nibble_and_nibble_0, BitVec.and_allOnes]; rfl

end

/-! ### One mask for each family -/

/-- Families whose low 12 bits are all operands. -/
def operandFamilies : List (Fin 16) := [1, 2, 3, 4, 6, 7, 10, 11, 12, 13]

/-- Families whose low nibble is a function code. -/
def nibbleFamilies : List (Fin 16) := [5, 8, 9]

/-- Families whose low byte is a function code. -/
def byteFamilies : List (Fin 16) := [14, 15]

/-- The mask that all rows of a family have in the opcode map (30_encoding.md R64). -/
def familyMask (f : Fin 16) : Opcode :=
  if f = 0 then 0xFFFF
  else if f ∈ nibbleFamilies then 0xF00F
  else if f ∈ byteFamilies then 0xF0FF
  else 0xF000

theorem familyMask_cases (f : Fin 16) :
    (f = 0 ∧ familyMask f = 0xFFFF) ∨ (f ∈ operandFamilies ∧ familyMask f = 0xF000) ∨
    (f ∈ nibbleFamilies ∧ familyMask f = 0xF00F) ∨ (f ∈ byteFamilies ∧ familyMask f = 0xF0FF) := by
  revert f; decide

theorem family_and_familyMask (op : Opcode) (f : Fin 16) : family (op &&& familyMask f) = family op := by
  obtain ⟨-, hm⟩ | ⟨-, hm⟩ | ⟨-, hm⟩ | ⟨-, hm⟩ := familyMask_cases f <;> rw [hm]
  · rw [and_FFFF]
  · rw [and_F000, family_formatNnn]
  · rw [and_F00F, family_formatXyn]
  · rw [and_F0FF, family_formatXkk]

/-! ### The row an opcode decodes to -/

/-- The id of the row of the opcode map that the decoder chooses, if it chooses one. -/
def rowId (op : Opcode) : Option String := (decode op).toOption.map Instr.id

theorem rowId_eq_some {op : Opcode} {id : String} :
    rowId op = some id ↔ ∃ i, decode op = .ok i ∧ i.id = id := by
  cases h : decode op <;> simp [rowId, h, Except.toOption]

section
variable {op : Opcode}

theorem rowId_of_operandFamily (hf : family op ∈ operandFamilies) :
    rowId op = rowId (formatNnn (family op) 0) := by
  simp only [rowId, decode, family_formatNnn]
  simp only [operandFamilies, List.mem_cons, List.not_mem_nil, or_false] at hf
  rcases hf with h | h | h | h | h | h | h | h | h | h <;> simp [h, Except.toOption, Instr.id]

theorem rowId_of_nibbleFamily (hf : family op ∈ nibbleFamilies) :
    rowId op = rowId (formatXyn (family op) 0 0 (fieldN op)) := by
  simp only [rowId, decode, family_formatXyn]
  simp only [nibbleFamilies, List.mem_cons, List.not_mem_nil, or_false] at hf
  rcases hf with h | h | h <;> rw [h]
  · simp only [decodeXy0, fieldN_formatXyn]; split <;> rfl
  · simp only [decodeAlu, fieldN_formatXyn]; split <;> rfl
  · simp only [decodeXy0, fieldN_formatXyn]; split <;> rfl

theorem rowId_of_byteFamily (hf : family op ∈ byteFamilies) :
    rowId op = rowId (formatXkk (family op) 0 (fieldKk op)) := by
  simp only [rowId, decode, family_formatXkk]
  simp only [byteFamilies, List.mem_cons, List.not_mem_nil, or_false] at hf
  rcases hf with h | h <;> rw [h]
  · simp only [decodeKey, fieldKk_formatXkk]; split <;> rfl
  · simp only [decodeMisc, fieldKk_formatXkk]; split <;> rfl

end

/-- Operands do not decide the row: the bits that the family's mask clears can be cleared. -/
theorem rowId_and_familyMask (op : Opcode) : rowId (op &&& familyMask (family op)) = rowId op := by
  obtain ⟨-, hm⟩ | ⟨hf, hm⟩ | ⟨hf, hm⟩ | ⟨hf, hm⟩ := familyMask_cases (family op) <;> rw [hm]
  · rw [and_FFFF]
  · rw [and_F000, rowId_of_operandFamily hf]
  · rw [and_F00F, rowId_of_nibbleFamily hf]
  · rw [and_F0FF, rowId_of_byteFamily hf]

/-- Each row has its family's mask, and its pattern decodes to an instruction of the row. -/
theorem opcodeMap_mask_rowId : ∀ row ∈ opcodeMap,
    row.mask = familyMask (family row.pattern) ∧ rowId row.pattern = some row.id := by decide

theorem rowId_of_matches {op : Opcode} {row : OpcodeRow} (hrow : row ∈ opcodeMap)
    (h : op &&& row.mask = row.pattern) : rowId op = some row.id := by
  obtain ⟨hmask, hid⟩ := opcodeMap_mask_rowId row hrow
  have hf : family op = family row.pattern := by
    rw [hmask] at h
    rw [← family_and_familyMask op (family row.pattern), h]
  rw [← rowId_and_familyMask, hf, ← hmask, h, hid]

/-! ### Every opcode that decodes matches a row -/

/-- The function codes of a nibble family (30_encoding.md R64). -/
def nibbleCodes (f : Fin 16) : List (Fin 16) := if f = 8 then [0, 1, 2, 3, 4, 5, 6, 7, 14] else [0]

/-- The function codes of a byte family (30_encoding.md R64). -/
def byteCodes (f : Fin 16) : List Byte :=
  if f = 14 then [0x9E, 0xA1] else [0x07, 0x0A, 0x15, 0x18, 0x1E, 0x29, 0x33, 0x55, 0x65]

theorem exists_row_of_operandFamily : ∀ f ∈ operandFamilies,
    ∃ row ∈ opcodeMap, row.mask = 0xF000 ∧ row.pattern = formatNnn f 0 := by decide

theorem exists_row_of_nibbleCode : ∀ f ∈ nibbleFamilies, ∀ n ∈ nibbleCodes f,
    ∃ row ∈ opcodeMap, row.mask = 0xF00F ∧ row.pattern = formatXyn f 0 0 n := by decide

theorem exists_row_of_byteCode : ∀ f ∈ byteFamilies, ∀ kk ∈ byteCodes f,
    ∃ row ∈ opcodeMap, row.mask = 0xF0FF ∧ row.pattern = formatXkk f 0 kk := by decide

section
variable {op : Opcode} {i : Instr}

theorem eq_of_decode_family_0 (hf : family op = 0) (h : decode op = .ok i) : op = 0x00E0 ∨ op = 0x00EE := by
  simp only [decode, hf, decodeFix] at h
  split at h
  · next h0 => exact .inl h0
  · split at h
    · next h1 => exact .inr h1
    · cases h

theorem fieldN_mem_nibbleCodes (hf : family op ∈ nibbleFamilies) (h : decode op = .ok i) :
    fieldN op ∈ nibbleCodes (family op) := by
  simp only [nibbleFamilies, List.mem_cons, List.not_mem_nil, or_false] at hf
  rcases hf with hf | hf | hf <;> simp only [decode, hf] at h ⊢
  · unfold decodeXy0 at h
    split at h <;> simp_all [nibbleCodes]
  · unfold decodeAlu at h
    split at h <;> simp_all [nibbleCodes]
  · unfold decodeXy0 at h
    split at h <;> simp_all [nibbleCodes]

theorem fieldKk_mem_byteCodes (hf : family op ∈ byteFamilies) (h : decode op = .ok i) :
    fieldKk op ∈ byteCodes (family op) := by
  simp only [byteFamilies, List.mem_cons, List.not_mem_nil, or_false] at hf
  rcases hf with hf | hf <;> simp only [decode, hf] at h ⊢
  · unfold decodeKey at h
    split at h <;> simp_all [byteCodes]
  · unfold decodeMisc at h
    split at h <;> simp_all [byteCodes]

/-- The family, with the function code where there is one, names the row. -/
theorem exists_row_of_decode (h : decode op = .ok i) : ∃ row ∈ opcodeMap, op &&& row.mask = row.pattern := by
  obtain ⟨hf, -⟩ | ⟨hf, -⟩ | ⟨hf, -⟩ | ⟨hf, -⟩ := familyMask_cases (family op)
  · obtain rfl | rfl := eq_of_decode_family_0 hf h <;> decide
  · obtain ⟨row, hrow, hm, hp⟩ := exists_row_of_operandFamily _ hf
    exact ⟨row, hrow, by rw [hm, hp, and_F000]⟩
  · obtain ⟨row, hrow, hm, hp⟩ := exists_row_of_nibbleCode _ hf _ (fieldN_mem_nibbleCodes hf h)
    exact ⟨row, hrow, by rw [hm, hp, and_F00F]⟩
  · obtain ⟨row, hrow, hm, hp⟩ := exists_row_of_byteCode _ hf _ (fieldKk_mem_byteCodes hf h)
    exact ⟨row, hrow, by rw [hm, hp, and_F0FF]⟩

/-- Every error branch of the decoder names the opcode it was given. -/
theorem eq_invalidOpcode_of_decode {e : DecodeError} (h : decode op = .error e) : e = .invalidOpcode op := by
  unfold decode decodeFix decodeXy0 decodeAlu decodeKey decodeMisc at h
  repeat' split at h
  all_goals simp_all

theorem decode_eq_invalidOpcode (h : ∀ row ∈ opcodeMap, op &&& row.mask ≠ row.pattern) :
    decode op = .error (.invalidOpcode op) := by
  cases hd : decode op with
  | error e => rw [eq_invalidOpcode_of_decode hd]
  | ok i =>
    obtain ⟨row, hrow, hm⟩ := exists_row_of_decode hd
    exact absurd hm (h row hrow)

end

/-! ### The ids tell the rows apart -/

theorem nodup_opcodeMap_ids : (opcodeMap.map OpcodeRow.id).Nodup := by decide

theorem decode_row_iff_matches {op : Opcode} {row : OpcodeRow} (hrow : row ∈ opcodeMap) :
    (∃ i, decode op = .ok i ∧ i.id = row.id) ↔ op &&& row.mask = row.pattern := by
  rw [← rowId_eq_some]
  refine ⟨fun hid => ?_, rowId_of_matches hrow⟩
  obtain ⟨i, hi, -⟩ := rowId_eq_some.1 hid
  obtain ⟨row', hrow', hm⟩ := exists_row_of_decode hi
  have hids : row'.id = row.id := Option.some.inj ((rowId_of_matches hrow' hm).symm.trans hid)
  rwa [← List.inj_on_of_nodup_map nodup_opcodeMap_ids hrow' hrow hids]

/-- The decoder is a function, so an opcode that matches two rows would have both ids. -/
theorem opcodeMap_pairwise_disjoint : opcodeMap.Pairwise fun a b =>
    ∀ op : Opcode, ¬ (op &&& a.mask = a.pattern ∧ op &&& b.mask = b.pattern) :=
  (List.pairwise_map.1 nodup_opcodeMap_ids).imp_of_mem fun ha hb hne _ ⟨hma, hmb⟩ =>
    hne (Option.some.inj ((rowId_of_matches ha hma).symm.trans (rowId_of_matches hb hmb)))

/-- Settles O3: masking keeps the fields the decoder chooses by, and distinct ids keep the rows apart. -/
theorem decodesExactlyByMaskAndMatch : Obligations.DecodesExactlyByMaskAndMatch :=
  ⟨fun _ _ => decode_row_iff_matches, opcodeMap_pairwise_disjoint, fun _ => decode_eq_invalidOpcode,
    fun s hs h => ⟨s.pc, Machine.step_of_error hs (decode_eq_invalidOpcode h)⟩⟩

end Sys2Proof
end

section
/-! SUPPORT. Jumps and compare skips write PC alone (40_control_flow.md R85, R87 to R91). -/

namespace Sys2Proof.Machine

variable (s : State)

/-! ### What each instruction executes -/

theorem exec_jp (nnn : Addr) : exec (.jp nnn) s = .next (s.setPc nnn) := rfl

theorem exec_jpV0 (nnn : Addr) : exec (.jpV0 nnn) s = .next (s.setPc (nnn + widen (s.reg 0))) := rfl

theorem exec_seImm (x : Reg) (kk : Byte) : exec (.seImm x kk) s = .next (s.skipIf (s.reg x == kk)) := rfl

theorem exec_sneImm (x : Reg) (kk : Byte) : exec (.sneImm x kk) s = .next (s.skipIf (s.reg x != kk)) := rfl

theorem exec_seReg (x y : Reg) : exec (.seReg x y) s = .next (s.skipIf (s.reg x == s.reg y)) := rfl

theorem exec_sneReg (x y : Reg) : exec (.sneReg x y) s = .next (s.skipIf (s.reg x != s.reg y)) := rfl

/-! ### Jumps -/

/-- Going back to the PC before the fetch undoes the advance of the step. -/
theorem State.setPc_pc_advance : s.advance.setPc s.pc = s := rfl

/-- The step of an idle loop advances PC and jumps back. -/
theorem step_of_idle (h : s.Idle) : step s = .next s := by
  obtain ⟨hrun, hdec⟩ := nextInstr_eq_some.1 h
  rw [step_of_decode hrun hdec, exec_jp, State.setPc_pc_advance]

/-- Settles O30: both jumps are one write of PC, and an idle step writes back the PC it started from. -/
theorem jumpsSetPc : Obligations.JumpsSetPc :=
  ⟨fun s nnn =>
    ⟨⟨_, exec_jp s nnn, State.setPc_pc s nnn, sameExcept_setPc s nnn⟩,
     ⟨_, exec_jpV0 s nnn, by simp [BitVec.toNat_add], sameExcept_setPc s _⟩⟩,
   step_of_idle⟩

/-! ### Skips -/

/-- A taken skip adds 2 to PC mod 4096 (10_state.md R15). -/
theorem State.toNat_pc_skipIf (c : Bool) :
    (s.skipIf c).pc.toNat = if c then (s.pc.toNat + 2) % 4096 else s.pc.toNat := by
  cases c
  · rfl
  · exact BitVec.toNat_add s.pc 2

variable {s}

/-- An instruction that executes as a skip on `c` completes and skips exactly when the condition `p` that `c`
decides holds. -/
theorem exec_skip {i : Instr} {c : Bool} {p : Prop} [Decidable p] (hi : exec i s = .next (s.skipIf c))
    (hc : c = true ↔ p) :
    ∃ t, exec i s = .next t ∧ SameExcept [.pc] s t ∧
      t.pc.toNat = if p then (s.pc.toNat + 2) % 4096 else s.pc.toNat :=
  ⟨_, hi, sameExcept_skipIf s c, by simp only [State.toNat_pc_skipIf, hc]⟩

/-- Settles O34: each of the four executes as a skip on its own comparison. -/
theorem compareSkipsAddTwoToPc : Obligations.CompareSkipsAddTwoToPc := fun s x y kk =>
  ⟨exec_skip (exec_seImm s x kk) beq_iff_eq, exec_skip (exec_sneImm s x kk) bne_iff_ne,
   exec_skip (exec_seReg s x y) beq_iff_eq, exec_skip (exec_sneReg s x y) bne_iff_ne⟩

end Sys2Proof.Machine
end

section
/-! SUPPORT. Register loads, ADD_IMM and logic write V alone (41_register_alu.md R101 to R106). -/

namespace Sys2Proof.Machine

variable (s : State) (x y : Reg) (kk : Byte)

/-! ### What each instruction executes -/

theorem exec_ldImm : exec (.ldImm x kk) s = .next (s.setReg x kk) := rfl

theorem exec_addImm : exec (.addImm x kk) s = .next (s.setReg x (s.reg x + kk)) := rfl

theorem exec_ldReg : exec (.ldReg x y) s = .next (s.setReg x (s.reg y)) := rfl

theorem exec_or : exec (.or x y) s = .next (s.resultThenFlag x (s.reg x ||| s.reg y) logicFlag) := rfl

theorem exec_and : exec (.and x y) s = .next (s.resultThenFlag x (s.reg x &&& s.reg y) logicFlag) := rfl

theorem exec_xor : exec (.xor x y) s = .next (s.resultThenFlag x (s.reg x ^^^ s.reg y) logicFlag) := rfl

/-! ### One register written -/

variable {s x}

/-- An instruction that executes as one write of Vx completes with the value there and nothing else changed. -/
theorem exec_writes_reg {i : Instr} {b : Byte} (hi : exec i s = .next (s.setReg x b)) :
    ∃ t, exec i s = .next t ∧ t.reg x = b ∧ SameRegsExcept [x] s t ∧ SameExcept [.v] s t :=
  ⟨_, hi, State.reg_setReg_same s x b, sameRegsExcept_setReg s x b, sameExcept_setReg s x b⟩

/-- Settles O15: each of the three is one write of Vx; the 8-bit sum of ADD_IMM is the sum mod 256. -/
theorem loadsAndAddImmediateWriteVxAlone : Obligations.LoadsAndAddImmediateWriteVxAlone := by
  intro s x y kk
  obtain ⟨t, hexec, hsum, hframe⟩ := exec_writes_reg (exec_addImm s x kk)
  have hmod : (t.reg x).toNat = ((s.reg x).toNat + kk.toNat) % 256 := by rw [hsum, BitVec.toNat_add]
  exact ⟨exec_writes_reg (exec_ldImm s x kk), ⟨t, hexec, hmod, hframe⟩, exec_writes_reg (exec_ldReg s x y)⟩

/-! ### The result in Vx, then the flag in VF -/

variable (s) in
theorem State.reg_vf_resultThenFlag (res fl : Byte) : (s.resultThenFlag x res fl).reg vf = fl := by
  rw [State.reg_resultThenFlag, if_pos rfl]

variable (s) in
/-- The flag write overwrites the result only when x is 15. -/
theorem State.reg_resultThenFlag_of_ne_vf (res fl : Byte) (h : x ≠ vf) : (s.resultThenFlag x res fl).reg x = res := by
  rw [State.reg_resultThenFlag, if_neg h, if_pos rfl]

/-- An instruction that executes as a result write and then a flag write completes with the flag in VF, the result
in Vx unless x is 15, and nothing else changed. -/
theorem exec_writes_result_then_flag {i : Instr} {res fl : Byte}
    (hi : exec i s = .next (s.resultThenFlag x res fl)) :
    ∃ t, exec i s = .next t ∧ (x ≠ vf → t.reg x = res) ∧ t.reg vf = fl ∧
      SameRegsExcept [x, vf] s t ∧ SameExcept [.v] s t :=
  ⟨_, hi, s.reg_resultThenFlag_of_ne_vf res fl, s.reg_vf_resultThenFlag res fl,
    sameRegsExcept_resultThenFlag s x res fl, sameExcept_resultThenFlag s x res fl⟩

/-- Settles O16: each of the three writes its result first and the flag, which is 0, last. -/
theorem logicInstructionsClearVF : Obligations.LogicInstructionsClearVF := fun s x y =>
  ⟨exec_writes_result_then_flag (exec_or s x y), exec_writes_result_then_flag (exec_and s x y),
    exec_writes_result_then_flag (exec_xor s x y)⟩

end Sys2Proof.Machine
end

section
/-! SUPPORT. LD_INDEX, ADD_INDEX and LD_FONT write I alone (42_index_memory.md R120 to R122). -/

namespace Sys2Proof.Machine

variable (s : State) (x : Reg) (nnn : Addr)

/-! ### What each instruction executes -/

theorem exec_ldIndex : exec (.ldIndex nnn) s = .next (s.setI nnn) := rfl

theorem exec_addIndex : exec (.addIndex x) s = .next (s.setI (s.i + widen (s.reg x))) := rfl

theorem exec_ldFont : exec (.ldFont x) s = .next (s.setI (widen (s.reg x) * 5)) := rfl

/-! ### The addresses written -/

/-- Adding a byte to an address wraps at 4096 (R121). -/
theorem toNat_add_widen (a : Addr) (b : Byte) : (a + widen b).toNat = (a.toNat + b.toNat) % 4096 := by
  rw [BitVec.toNat_add, toNat_widen]

/-- The glyph address of a byte is at most 255 * 5 = 0x4FB, so the 12-bit product does not wrap (R122). -/
theorem toNat_widen_mul_five (b : Byte) : (widen b * 5).toNat = b.toNat * 5 := by
  have hfits : b.toNat * 5 < 2 ^ 12 := by omega
  calc (widen b * 5).toNat
    _ = b.toNat * 5 % 2 ^ 12 := by rw [BitVec.toNat_mul, toNat_widen]; rfl
    _ = b.toNat * 5 := Nat.mod_eq_of_lt hfits

/-- Settles O23: each of the three is one write of I; the sum of ADD_INDEX wraps and the product of LD_FONT fits. -/
theorem indexInstructionsWriteIAlone : Obligations.IndexInstructionsWriteIAlone := fun s x nnn =>
  ⟨⟨_, exec_ldIndex s nnn, State.setI_i s nnn, sameExcept_setI s nnn⟩,
   ⟨_, exec_addIndex s x, toNat_add_widen s.i (s.reg x), sameExcept_setI s _⟩,
   ⟨_, exec_ldFont s x, toNat_widen_mul_five (s.reg x), sameExcept_setI s _⟩⟩

end Sys2Proof.Machine
end

section
/-! SUPPORT. What drawing a sprite does to each pixel and to the collision bit (43_display.md R142). A sprite of at
most 32 rows visits no pixel twice, so a pixel it covers is toggled once and read before that. -/

namespace Sys2Proof.Machine

variable (x0 y0 : Nat) (rows : List Byte) (f : Framebuffer)

/-- The collision bit is clear before the first pixel. -/
theorem drawSprite_eq_foldl :
    drawSprite x0 y0 rows f = (spritePixels x0 y0 rows).foldl Canvas.toggleAt ⟨f, false⟩ :=
  drawRows_eq_foldl x0 y0 rows ⟨f, false⟩

variable {x0 y0 rows}

theorem pixel_drawSprite_of_covers (h : rows.length ≤ 32) {r : Fin 32} {c : Fin 64}
    (hc : SpriteCovers x0 y0 rows r c) : (drawSprite x0 y0 rows f).fb.pixel r c = !f.pixel r c := by
  have hmem : (r, c) ∈ spritePixels x0 y0 rows := (mem_spritePixels x0 y0 rows (r, c)).2 hc
  rw [drawSprite_eq_foldl, pixel_foldl_toggleAt _ (nodup_spritePixels x0 y0 rows h), if_pos hmem]

theorem pixel_drawSprite_of_not_covers (h : rows.length ≤ 32) {r : Fin 32} {c : Fin 64}
    (hc : ¬ SpriteCovers x0 y0 rows r c) : (drawSprite x0 y0 rows f).fb.pixel r c = f.pixel r c := by
  have hmem : (r, c) ∉ spritePixels x0 y0 rows := mt (mem_spritePixels x0 y0 rows (r, c)).1 hc
  rw [drawSprite_eq_foldl, pixel_foldl_toggleAt _ (nodup_spritePixels x0 y0 rows h), if_neg hmem]

theorem hit_drawSprite (h : rows.length ≤ 32) :
    (drawSprite x0 y0 rows f).hit = true ↔ ∃ r c, SpriteCovers x0 y0 rows r c ∧ f.pixel r c = true := by
  rw [drawSprite_eq_foldl, hit_foldl_toggleAt _ (nodup_spritePixels x0 y0 rows h)]
  simp only [mem_spritePixels, Prod.exists, Bool.false_eq_true, false_or]

/-- Settles O36: 15 rows are fewer than 32, so each covered pixel is toggled once and no other is touched. -/
theorem drawSpriteTogglesExactlyItsPixels : Obligations.DrawSpriteTogglesExactlyItsPixels := by
  intro x0 y0 rows f hlen
  have h : rows.length ≤ 32 := by omega
  exact ⟨fun _ _ => pixel_drawSprite_of_covers f h, fun _ _ => pixel_drawSprite_of_not_covers f h, hit_drawSprite f h⟩

end Sys2Proof.Machine
end

section
/-! SUPPORT. LD_VX_DT, LD_DT_VX and LD_ST_VX move one byte between a register and a timer (44_keypad_timer.md R165
to R167). -/

namespace Sys2Proof.Machine

variable (s : State) (x : Reg)

/-! ### What each instruction executes -/

theorem exec_ldVxDt : exec (.ldVxDt x) s = .next (s.setReg x s.dt) := rfl

theorem exec_ldDtVx : exec (.ldDtVx x) s = .next (s.setDt (s.reg x)) := rfl

theorem exec_ldStVx : exec (.ldStVx x) s = .next (s.setSt (s.reg x)) := rfl

/-! ### Frames of the timer writes -/

theorem sameExcept_setDt (b : Byte) : SameExcept [.dt] s (s.setDt b) := by
  simp [SameExcept, forall_field, Field.Same, State.keyDown]

theorem sameExcept_setSt (b : Byte) : SameExcept [.st] s (s.setSt b) := by
  simp [SameExcept, forall_field, Field.Same, State.keyDown]

/-- Settles O44: the read of DT is one write of Vx, and each store is one write of its timer. -/
theorem timerInstructionsMoveOneByte : Obligations.TimerInstructionsMoveOneByte := fun s x =>
  ⟨exec_writes_reg (exec_ldVxDt s x),
   ⟨_, exec_ldDtVx s x, State.setDt_dt s _, sameExcept_setDt s _⟩,
   ⟨_, exec_ldStVx s x, State.setSt_st s _, sameExcept_setSt s _⟩⟩

end Sys2Proof.Machine
end

section
/-! SUPPORT. What the renderer reads and takes (60_exceptions.md R199, R200), and what a tick does (R190). -/

namespace Sys2Proof.Machine

/-! ### The framebuffer row-major -/

/-- The rows one after another are the flattened vector of rows, whose library lemmas give length and indexing. -/
theorem State.readFramebuffer_eq_flatten (s : State) : s.readFramebuffer = s.fb.flatten.toList := by
  simp only [State.readFramebuffer, List.flatMap_def, Vector.flatten, Vector.toList, Array.toList_flatten,
    Array.toList_map, List.map_map]
  rfl

/-- There are 32 * 64 pixels (R199). -/
theorem State.length_readFramebuffer (s : State) : s.readFramebuffer.length = 2048 := by
  rw [s.readFramebuffer_eq_flatten, Vector.length_toList]

/-- The row-major index of a pixel is one of the 2048, and dividing it by 64 gives back its row and its column. -/
theorem rowMajor_bounds (r : Fin 32) (c : Fin 64) :
    r.val * 64 + c.val < 32 * 64 ∧ (r.val * 64 + c.val) / 64 = r.val ∧ (r.val * 64 + c.val) % 64 = c.val := by
  omega

/-- Pixel (r, c) stands at index `r * 64 + c` (R199). -/
theorem State.readFramebuffer_getElem? (s : State) (r : Fin 32) (c : Fin 64) :
    s.readFramebuffer[r.val * 64 + c.val]? = some (s.fb.pixel r c) := by
  obtain ⟨hlt, hrow, hcol⟩ := rowMajor_bounds r c
  rw [s.readFramebuffer_eq_flatten, Vector.getElem?_toList, Vector.getElem?_eq_getElem hlt, Vector.getElem_flatten]
  simp only [hrow, hcol, Framebuffer.pixel, Vector.get_eq_getElem]

/-! ### The three events -/

section
variable (s : State) (font : Config.Font)

theorem deliver_readFramebuffer : s.deliver font .readFramebuffer = (s, .pixels s.readFramebuffer) := rfl

theorem deliver_takeDrawFlag : s.deliver font .takeDrawFlag = (s.clearDraw, .drawFlag s.draw) := rfl

theorem deliver_tick60 : s.deliver font .tick60 = (s.tick60, if s.st = 1 then .toneRequest else .done) := by
  simp only [State.deliver, State.tickTone, beq_iff_eq]

theorem State.clearDraw_draw : s.clearDraw.draw = false := rfl

theorem sameExcept_clearDraw : SameExcept [.draw] s s.clearDraw := by
  simp [SameExcept, forall_field, Field.Same, State.keyDown, State.clearDraw]

theorem State.tick60_dt : s.tick60.dt = countDown s.dt := rfl

theorem State.tick60_st : s.tick60.st = countDown s.st := rfl

end

/-- Settles O51: the read is the flattened framebuffer over an unchanged state; the take is one write of DRAW. -/
theorem theRendererReadsPixelsAndTakesDraw : Obligations.TheRendererReadsPixelsAndTakesDraw := fun s font =>
  ⟨⟨_, deliver_readFramebuffer s font, s.length_readFramebuffer, s.readFramebuffer_getElem?⟩,
   ⟨_, deliver_takeDrawFlag s font, s.clearDraw_draw, sameExcept_clearDraw s⟩⟩

/-- Settles O46: each timer is counted down once, and ST before the tick alone decides the tone. -/
theorem tickCountsTheTimersDown : Obligations.TickCountsTheTimersDown := by
  intro s font
  have hdt : s.tick60.dt.toNat = s.dt.toNat - 1 := by rw [s.tick60_dt, toNat_countDown]
  have hst : s.tick60.st.toNat = s.st.toNat - 1 := by rw [s.tick60_st, toNat_countDown]
  exact ⟨_, _, deliver_tick60 s font, hdt, hst, fun h => if_pos h, fun h => if_neg h, sameExcept_tick60 s⟩

end Sys2Proof.Machine
end

section
/-! SUPPORT. Loading a program image: what is refused, what is copied, and where (70_reset_and_hazards.md R211, R212). -/

namespace Sys2Proof.Machine

variable (s : State) (font : Config.Font) {bytes : List Byte}

/-! ### The event -/

/-- The refusal leaves the whole state as it was. -/
theorem deliver_loadRom_of_too_long (h : 3584 < bytes.length) :
    s.deliver font (.loadRom bytes) = (s, .fault (.romTooLarge bytes.length)) := by
  rw [State.deliver, loadRom_of_too_long h, State.settle]

theorem deliver_loadRom_of_fits (h : bytes.length ≤ 3584) :
    s.deliver font (.loadRom bytes) = (s.copyRom bytes, .done) := by
  rw [State.deliver, loadRom_of_fits h, State.settle]

/-! ### Where the bytes are -/

/-- The distance of an address from 0x200 does not wrap from 0x200 on. -/
theorem toNat_sub_romBase {a : Addr} (ha : 0x200 ≤ a.toNat) : (a - Config.romBase).toNat = a.toNat - 0x200 :=
  BitVec.toNat_sub_of_le (BitVec.le_def.2 ha)

/-- A byte of the image stands at 0x200 plus its index. -/
theorem read_copyRom (h : bytes.length ≤ 3584) {a : Addr} (ha : 0x200 ≤ a.toNat)
    (hlt : a.toNat - 0x200 < bytes.length) : (s.copyRom bytes).mem.read a = bytes[a.toNat - 0x200] := by
  rw [State.copyRom, State.setRomImg_mem, State.setPc_mem, State.setMem_mem,
    Memory.read_writeBlock _ _ _ _ (by omega), toNat_sub_romBase ha, List.getElem?_eq_getElem hlt, Option.getD_some]

/-- Settles O55: the longer image is refused; of the one that fits exactly, every address from 0x200 to 0xFFF holds
the byte at its distance from 0x200. -/
theorem aTooLongRomChangesNothing : Obligations.ATooLongRomChangesNothing := by
  intro s font rom
  refine ⟨deliver_loadRom_of_too_long s font, fun hlen => ⟨_, deliver_loadRom_of_fits s font hlen.le, fun a ha => ?_⟩⟩
  have hlt : a.toNat - 0x200 < rom.length := by omega
  rw [List.getElem?_eq_getElem hlt, read_copyRom s hlen.le ha hlt]

end Sys2Proof.Machine
end

section
/-! SUPPORT. The decoder and the encoder undo each other on the 34 instructions and the legal opcodes
(30_encoding.md R61 to R66). -/

namespace Sys2Proof

/-! ### Decoding what the encoder builds -/

theorem decode_encode (i : Instr) : decode (encode i) = .ok i := by
  cases i with
  | cls | ret => rfl
  | jp nnn | call nnn | ldIndex nnn | jpV0 nnn =>
    simp [encode, decode]
  | seImm x kk | sneImm x kk | ldImm x kk | addImm x kk | rnd x kk =>
    simp [encode, decode]
  | seReg x y | sneReg x y =>
    simp [encode, decode, decodeXy0]
  | ldReg x y | or x y | and x y | xor x y | addReg x y | sub x y | shr x y | subn x y | shl x y =>
    simp [encode, decode, decodeAlu]
  | drw x y n =>
    simp [encode, decode]
  | skp x | sknp x =>
    simp [encode, decode, decodeKey]
  | ldVxDt x | ldVxKey x | ldDtVx x | ldStVx x | addIndex x | ldFont x | ldBcd x | stRegs x | ldRegs x =>
    simp [encode, decode, decodeMisc]

/-- Settles O1: each format keeps every field the decoder reads. -/
theorem decodeOfEncodeIsTheInstruction : Obligations.DecodeOfEncodeIsTheInstruction := decode_encode

theorem encode_injective : Function.Injective encode := fun i j h =>
  Except.ok.inj ((decode_encode i).symm.trans ((congrArg decode h).trans (decode_encode j)))

/-! ### Encoding what the decoder reads -/

section
variable {op : Opcode} {i : Instr} {f : Fin 16}

theorem formatNnn_of_family (hf : family op = f) : formatNnn f (fieldNnn op) = op := by
  rw [← hf, formatNnn_fields]

theorem formatXkk_of_family (hf : family op = f) : formatXkk f (fieldX op) (fieldKk op) = op := by
  rw [← hf, formatXkk_fields]

theorem formatXyn_of_family (hf : family op = f) : formatXyn f (fieldX op) (fieldY op) (fieldN op) = op := by
  rw [← hf, formatXyn_fields]

theorem encode_of_decodeFix (h : decodeFix op = .ok i) : encode i = op := by
  unfold decodeFix at h
  split at h
  · next h0 => cases h; exact h0.symm
  · split at h
    · next h1 => cases h; exact h1.symm
    · cases h

theorem encode_of_decodeXy0 {mk : Reg → Reg → Instr} (hf : family op = f)
    (hmk : ∀ x y, encode (mk x y) = formatXyn f x y 0) (h : decodeXy0 mk op = .ok i) : encode i = op := by
  unfold decodeXy0 at h
  split at h
  · next hn => cases h; rw [hmk, ← hn, formatXyn_of_family hf]
  · cases h

theorem encode_of_decodeAlu (hf : family op = 8) (h : decodeAlu op = .ok i) : encode i = op := by
  have hop := formatXyn_of_family hf
  unfold decodeAlu at h
  split at h <;> cases h <;> (next hn => rw [hn] at hop; exact hop)

theorem encode_of_decodeKey (hf : family op = 14) (h : decodeKey op = .ok i) : encode i = op := by
  have hop := formatXkk_of_family hf
  unfold decodeKey at h
  split at h <;> cases h <;> (next hk => rw [hk] at hop; exact hop)

theorem encode_of_decodeMisc (hf : family op = 15) (h : decodeMisc op = .ok i) : encode i = op := by
  have hop := formatXkk_of_family hf
  unfold decodeMisc at h
  split at h <;> cases h <;> (next hk => rw [hk] at hop; exact hop)

/-- The format of the instruction's family rebuilds the opcode from the fields that were read. -/
theorem encode_of_decode (h : decode op = .ok i) : encode i = op := by
  unfold decode at h
  split at h
  case h_1 => exact encode_of_decodeFix h
  case h_2 hf | h_3 hf | h_11 hf | h_12 hf => cases h; exact formatNnn_of_family hf
  case h_4 hf | h_5 hf | h_7 hf | h_8 hf | h_13 hf => cases h; exact formatXkk_of_family hf
  case h_6 hf | h_10 hf => exact encode_of_decodeXy0 hf (fun _ _ => rfl) h
  case h_9 hf => exact encode_of_decodeAlu hf h
  case h_14 hf => cases h; exact formatXyn_of_family hf
  case h_15 hf => exact encode_of_decodeKey hf h
  case h_16 hf => exact encode_of_decodeMisc hf h
  case h_17 => cases h

end

/-- Settles O2: the fields of an opcode, SHR's and SHL's ignored y among them, rebuild it. -/
theorem encodeOfDecodeIsTheOpcode : Obligations.EncodeOfDecodeIsTheOpcode := fun _ _ => encode_of_decode

theorem decode_eq_ok_iff {op : Opcode} {i : Instr} : decode op = .ok i ↔ op = encode i :=
  ⟨fun h => (encode_of_decode h).symm, fun h => h ▸ decode_encode i⟩

/-! ### The family table of illegal opcodes -/

theorem legalOpcode_encode (i : Instr) : legalOpcode (encode i) = true := by
  cases i with
  | cls => exact Laws.EncodesLegally.cls
  | ret => exact Laws.EncodesLegally.ret
  | jp nnn => exact Laws.EncodesLegally.jp nnn
  | call nnn => exact Laws.EncodesLegally.call nnn
  | seImm x kk => exact Laws.EncodesLegally.seImm x kk
  | sneImm x kk => exact Laws.EncodesLegally.sneImm x kk
  | seReg x y => exact Laws.EncodesLegally.seReg x y
  | ldImm x kk => exact Laws.EncodesLegally.ldImm x kk
  | addImm x kk => exact Laws.EncodesLegally.addImm x kk
  | ldReg x y => exact Laws.EncodesLegally.ldReg x y
  | or x y => exact Laws.EncodesLegally.or x y
  | and x y => exact Laws.EncodesLegally.and x y
  | xor x y => exact Laws.EncodesLegally.xor x y
  | addReg x y => exact Laws.EncodesLegally.addReg x y
  | sub x y => exact Laws.EncodesLegally.sub x y
  | shr x y => exact Laws.EncodesLegally.shr x y
  | subn x y => exact Laws.EncodesLegally.subn x y
  | shl x y => exact Laws.EncodesLegally.shl x y
  | sneReg x y => exact Laws.EncodesLegally.sneReg x y
  | ldIndex nnn => exact Laws.EncodesLegally.ldIndex nnn
  | jpV0 nnn => exact Laws.EncodesLegally.jpV0 nnn
  | rnd x kk => exact Laws.EncodesLegally.rnd x kk
  | drw x y n => exact Laws.EncodesLegally.drw x y n
  | skp x => exact Laws.EncodesLegally.skp x
  | sknp x => exact Laws.EncodesLegally.sknp x
  | ldVxDt x => exact Laws.EncodesLegally.ldVxDt x
  | ldVxKey x => exact Laws.EncodesLegally.ldVxKey x
  | ldDtVx x => exact Laws.EncodesLegally.ldDtVx x
  | ldStVx x => exact Laws.EncodesLegally.ldStVx x
  | addIndex x => exact Laws.EncodesLegally.addIndex x
  | ldFont x => exact Laws.EncodesLegally.ldFont x
  | ldBcd x => exact Laws.EncodesLegally.ldBcd x
  | stRegs x => exact Laws.EncodesLegally.stRegs x
  | ldRegs x => exact Laws.EncodesLegally.ldRegs x

section
variable {op : Opcode}

theorem eq_of_legal_family_0 (hf : family op = 0) (h : legalOpcode op = true) : op = 0x00E0 ∨ op = 0x00EE := by
  simpa [legalOpcode, ← val_family, hf, BitVec.toNat_eq] using h

theorem fieldN_mem_nibbleCodes_of_legal (hf : family op ∈ nibbleFamilies) (h : legalOpcode op = true) :
    fieldN op ∈ nibbleCodes (family op) := by
  simp only [nibbleFamilies, List.mem_cons, List.not_mem_nil, or_false] at hf
  rw [legalOpcode, ← val_family, ← val_fieldN] at h
  rcases hf with hf | hf | hf <;> rw [hf] at h ⊢
  · simpa [nibbleCodes] using h
  · have hn : (fieldN op).val ≤ 7 ∨ (fieldN op).val = 14 := by simpa using h
    simp [nibbleCodes]
    omega
  · simpa [nibbleCodes] using h

theorem fieldKk_mem_byteCodes_of_legal (hf : family op ∈ byteFamilies) (h : legalOpcode op = true) :
    fieldKk op ∈ byteCodes (family op) := by
  simp only [byteFamilies, List.mem_cons, List.not_mem_nil, or_false] at hf
  rcases hf with hf | hf <;>
    simpa [legalOpcode, ← val_family, ← toNat_fieldKk, hf, byteCodes, BitVec.toNat_eq] using h

/-- An opcode the table does not list as illegal has its family's row of the opcode map. -/
theorem exists_row_of_legal (h : legalOpcode op = true) : ∃ row ∈ opcodeMap, op &&& row.mask = row.pattern := by
  obtain ⟨hf, -⟩ | ⟨hf, -⟩ | ⟨hf, -⟩ | ⟨hf, -⟩ := familyMask_cases (family op)
  · obtain rfl | rfl := eq_of_legal_family_0 hf h <;> decide
  · obtain ⟨row, hrow, hm, hp⟩ := exists_row_of_operandFamily _ hf
    exact ⟨row, hrow, by rw [hm, hp, and_F000]⟩
  · obtain ⟨row, hrow, hm, hp⟩ := exists_row_of_nibbleCode _ hf _ (fieldN_mem_nibbleCodes_of_legal hf h)
    exact ⟨row, hrow, by rw [hm, hp, and_F00F]⟩
  · obtain ⟨row, hrow, hm, hp⟩ := exists_row_of_byteCode _ hf _ (fieldKk_mem_byteCodes_of_legal hf h)
    exact ⟨row, hrow, by rw [hm, hp, and_F0FF]⟩

theorem exists_decode_iff_legalOpcode : (∃ i, decode op = .ok i) ↔ legalOpcode op = true := by
  constructor
  · rintro ⟨i, hi⟩
    rw [← encode_of_decode hi, legalOpcode_encode]
  · intro h
    obtain ⟨row, hrow, hm⟩ := exists_row_of_legal h
    obtain ⟨i, hi, -⟩ := (decode_row_iff_matches hrow).2 hm
    exact ⟨i, hi⟩

end

/-- Settles O4: what decodes re-encodes to a legal opcode, and a legal opcode matches a row of the opcode map. -/
theorem legalOpcodesAreThoseOfTheFamilyTable : Obligations.LegalOpcodesAreThoseOfTheFamilyTable :=
  fun _ => exists_decode_iff_legalOpcode

/-- Settles O5: each legal word is the encoding of its instruction, and the two words with a function code of no row
reach the decoder's last branch. -/
theorem wordsOfTheSpecDecodeAsItSays : Obligations.WordsOfTheSpecDecodeAsItSays := by
  simp only [Obligations.WordsOfTheSpecDecodeAsItSays, decode_eq_ok_iff]
  decide

end Sys2Proof
end

section
/-! SUPPORT. What each instruction executes, when it completes or faults, and its frame (10_state.md R11 to R30,
20_memory.md R46, 60_exceptions.md R183, R184). -/

namespace Sys2Proof.Machine

/-! ### What each instruction executes -/

section
variable (s : State) (x y : Reg)

theorem exec_addReg :
    exec (.addReg x y) s = .next (s.resultThenFlag x (s.reg x + s.reg y) (carryFlag (s.reg x) (s.reg y))) := rfl

theorem exec_sub : exec (.sub x y) s =
    .next (s.flagThenResult x (notBorrowFlag (s.reg x) (s.reg y)) fun u => u.reg x - u.reg y) := rfl

theorem exec_shr : exec (.shr x y) s =
    .next (s.flagThenResult x (lowBitFlag (s.reg x)) fun u => u.reg x >>> 1) := rfl

theorem exec_subn : exec (.subn x y) s =
    .next (s.flagThenResult x (notBorrowFlag (s.reg y) (s.reg x)) fun u => u.reg y - u.reg x) := rfl

theorem exec_shl : exec (.shl x y) s =
    .next (s.flagThenResult x (highBitFlag (s.reg x)) fun u => u.reg x <<< 1) := rfl

theorem exec_rnd (kk : Byte) : exec (.rnd x kk) s = .next (s.maskDraw x kk (Config.drawByte s.draws)) := rfl

theorem exec_cls : exec .cls s = .next ((s.setFb Framebuffer.blank).setDraw true) := rfl

theorem exec_drw (n : Fin 16) : exec (.drw x y n) s =
    .next (((s.setFb (s.sprite x y n).fb).setReg vf (flagByte (s.sprite x y n).hit)).setDraw true) := rfl

theorem exec_skp : exec (.skp x) s = .next (s.skipIf (s.keyDown (s.keyOf x))) := rfl

theorem exec_sknp : exec (.sknp x) s = .next (s.skipIf (!s.keyDown (s.keyOf x))) := rfl

theorem exec_ldVxKey : exec (.ldVxKey x) s = .next ((s.setLastKey none).setStatus (.awaitingKey x)) := rfl

theorem exec_ldBcd : exec (.ldBcd x) s = .next (s.writeAtIndex (bcdDigits (s.reg x))) := rfl

theorem exec_stRegs : exec (.stRegs x) s = .next ((s.writeAtIndex (s.regsUpTo x)).bumpIndex x) := rfl

theorem exec_ldRegs : exec (.ldRegs x) s = .next ((s.loadRegsUpTo x).bumpIndex x) := rfl

end

/-! ### RET and CALL, which can fault -/

section
variable {s t : State} {nnn : Addr}

theorem exec_ret_of_append {below : List Addr} {a : Addr} (h : s.stack = below ++ [a]) :
    exec .ret s = .next ((s.setStack below).setPc a) := by
  simp only [exec, execRet, State.pop_of_append s h]

theorem exec_ret_of_nil (h : s.stack = []) : exec .ret s = .fault (.stackUnderflow 0x00EE s.instrAddr) := by
  simp only [exec, execRet, State.pop_of_nil s h]
  rfl

theorem exec_call_of_lt (nnn : Addr) (h : s.stack.length < 16) :
    exec (.call nnn) s = .next ((s.setStack (s.stack ++ [s.pc])).setPc nnn) := by
  simp only [exec, execCall, State.push_of_lt s h]

theorem exec_call_of_full (nnn : Addr) (h : 16 ≤ s.stack.length) :
    exec (.call nnn) s = .fault (.stackOverflow (encode (.call nnn)) s.instrAddr) := by
  simp only [exec, execCall, State.push_of_full s h]
  rfl

/-- RET completes only by popping the last return address. -/
theorem exec_ret_next (h : exec .ret s = .next t) :
    ∃ below a, s.stack = below ++ [a] ∧ t = (s.setStack below).setPc a := by
  obtain hnil | ⟨below, a, happ⟩ := s.stack.eq_nil_or_concat'
  · rw [exec_ret_of_nil hnil] at h
    cases h
  · rw [exec_ret_of_append happ] at h
    exact ⟨below, a, happ, (Host.Outcome.next.inj h).symm⟩

/-- CALL completes only below full depth. -/
theorem exec_call_next (h : exec (.call nnn) s = .next t) :
    s.stack.length < 16 ∧ t = (s.setStack (s.stack ++ [s.pc])).setPc nnn := by
  by_cases hlt : s.stack.length < 16
  · rw [exec_call_of_lt nnn hlt] at h
    exact ⟨hlt, (Host.Outcome.next.inj h).symm⟩
  · rw [exec_call_of_full nnn (Nat.le_of_not_lt hlt)] at h
    cases h

end

/-! ### Completing and faulting -/

section
variable {s : State} {i : Instr} {f : Fault}

/-- The fault of an instruction: StackUnderflow of RET on an empty STACK, StackOverflow of CALL on a full one
(60_exceptions.md R183, R184). -/
def StackFault (i : Instr) (s : State) (f : Fault) : Prop :=
  (i = .ret ∧ s.stack = [] ∧ f = .stackUnderflow 0x00EE s.instrAddr) ∨
  (∃ nnn, i = .call nnn ∧ 16 ≤ s.stack.length ∧ f = .stackOverflow (encode i) s.instrAddr)

theorem exec_of_stackFault (h : StackFault i s f) : exec i s = .fault f := by
  obtain ⟨rfl, hnil, rfl⟩ | ⟨nnn, rfl, hfull, rfl⟩ := h
  · exact exec_ret_of_nil hnil
  · exact exec_call_of_full nnn hfull

/-- Every instruction completes or ends in its stack fault. -/
theorem exec_next_or_stackFault (i : Instr) (s : State) : (∃ t, exec i s = .next t) ∨ ∃ f, StackFault i s f := by
  cases i with
  | ret =>
    obtain hnil | ⟨below, a, happ⟩ := s.stack.eq_nil_or_concat'
    · exact .inr ⟨_, .inl ⟨rfl, hnil, rfl⟩⟩
    · exact .inl ⟨_, exec_ret_of_append happ⟩
  | call nnn =>
    by_cases hlt : s.stack.length < 16
    · exact .inl ⟨_, exec_call_of_lt nnn hlt⟩
    · exact .inr ⟨_, .inr ⟨nnn, rfl, Nat.le_of_not_lt hlt, rfl⟩⟩
  | _ => exact .inl ⟨_, rfl⟩

theorem exec_fault_iff : exec i s = .fault f ↔ StackFault i s f := by
  refine ⟨fun h => ?_, exec_of_stackFault⟩
  obtain ⟨t, ht⟩ | ⟨g, hg⟩ := exec_next_or_stackFault i s
  · rw [ht] at h
    cases h
  · rw [exec_of_stackFault hg] at h
    cases h
    exact hg

end

/-! ### Frames -/

section
variable {s t u : State} {l l' : List Field}

theorem SameExcept.trans (h₁ : SameExcept l s t) (h₂ : SameExcept l t u) : SameExcept l s u :=
  fun f hf => (h₁ f hf).trans (h₂ f hf)

/-- Two writes one after another change at most the pieces of state of both. -/
theorem SameExcept.append (h₁ : SameExcept l s t) (h₂ : SameExcept l' t u) : SameExcept (l ++ l') s u :=
  (h₁.mono (List.subset_append_left l l')).trans (h₂.mono (List.subset_append_right l l'))

/-- Where V is not written, no register is. -/
theorem SameExcept.regs (h : SameExcept l s t) (hv : Field.v ∉ l) (rs : List Reg) : SameRegsExcept rs s t :=
  fun r _ => h .v hv r

end

section
variable (s : State)

theorem sameExcept_setFb (f : Framebuffer) : SameExcept [.fb] s (s.setFb f) := by
  simp [SameExcept, forall_field, Field.Same, State.keyDown]

theorem sameExcept_setDraw (b : Bool) : SameExcept [.draw] s (s.setDraw b) := by
  simp [SameExcept, forall_field, Field.Same, State.keyDown]

theorem sameExcept_setStack (k : List Addr) : SameExcept [.stack] s (s.setStack k) := by
  simp [SameExcept, forall_field, Field.Same, State.keyDown]

theorem sameExcept_setStatus (u : Status) : SameExcept [.status] s (s.setStatus u) := by
  simp [SameExcept, forall_field, Field.Same, State.keyDown]

theorem sameExcept_setLastKey (k : Option Key) : SameExcept [.lastKey] s (s.setLastKey k) := by
  simp [SameExcept, forall_field, Field.Same, State.keyDown]

theorem sameExcept_bumpIndex (x : Reg) : SameExcept [.i] s (s.bumpIndex x) := sameExcept_setI s _

/-- RET and CALL write STACK and then PC. -/
theorem sameExcept_setStack_setPc (k : List Addr) (a : Addr) :
    SameExcept [.pc, .stack] s ((s.setStack k).setPc a) :=
  ((sameExcept_setStack s k).append (sameExcept_setPc _ a)).mono (by simp)

theorem sameExcept_exec_cls : SameExcept [.fb, .draw] s ((s.setFb Framebuffer.blank).setDraw true) :=
  (sameExcept_setFb s _).append (sameExcept_setDraw _ _)

theorem sameExcept_exec_drw (f : Framebuffer) (b : Byte) :
    SameExcept [.v, .fb, .draw] s (((s.setFb f).setReg vf b).setDraw true) :=
  (((sameExcept_setFb s f).append (sameExcept_setReg _ vf b)).append (sameExcept_setDraw _ _)).mono (by simp)

theorem sameExcept_exec_ldVxKey (x : Reg) :
    SameExcept [.status, .lastKey] s ((s.setLastKey none).setStatus (.awaitingKey x)) :=
  ((sameExcept_setLastKey s _).append (sameExcept_setStatus _ _)).mono (by simp)

theorem sameExcept_exec_stRegs (x : Reg) :
    SameExcept [.mem, .i] s ((s.writeAtIndex (s.regsUpTo x)).bumpIndex x) :=
  (sameExcept_writeAtIndex s _).append (sameExcept_bumpIndex _ x)

theorem sameExcept_exec_ldRegs (x : Reg) : SameExcept [.v, .i] s ((s.loadRegsUpTo x).bumpIndex x) :=
  (sameExcept_loadRegsUpTo s x).append (sameExcept_bumpIndex _ x)

end

section
variable {s t : State} {i : Instr}

/-- The pieces of state each instruction leaves unchanged. -/
theorem exec_sameExcept (h : exec i s = .next t) : SameExcept (instrMayWrite i) s t := by
  cases i with
  | ret =>
    obtain ⟨below, a, -, rfl⟩ := exec_ret_next h
    exact sameExcept_setStack_setPc s below a
  | call nnn =>
    obtain ⟨-, rfl⟩ := exec_call_next h
    exact sameExcept_setStack_setPc s _ nnn
  | cls => cases h; exact sameExcept_exec_cls s
  | jp nnn | jpV0 nnn => cases h; exact sameExcept_setPc s _
  | seImm x kk | sneImm x kk => cases h; exact sameExcept_skipIf s _
  | seReg x y | sneReg x y => cases h; exact sameExcept_skipIf s _
  | skp x | sknp x => cases h; exact sameExcept_skipIf s _
  | ldImm x kk | addImm x kk => cases h; exact sameExcept_setReg s x _
  | ldReg x y => cases h; exact sameExcept_setReg s x _
  | ldVxDt x => cases h; exact sameExcept_setReg s x _
  | or x y | and x y | xor x y | addReg x y => cases h; exact sameExcept_resultThenFlag s x _ _
  | sub x y | shr x y | subn x y | shl x y => cases h; exact sameExcept_flagThenResult s x _ _
  | rnd x kk => cases h; exact sameExcept_maskDraw s x kk _
  | ldIndex nnn => cases h; exact sameExcept_setI s _
  | addIndex x | ldFont x => cases h; exact sameExcept_setI s _
  | drw x y n => cases h; exact sameExcept_exec_drw s _ _
  | ldVxKey x => cases h; exact sameExcept_exec_ldVxKey s x
  | ldDtVx x => cases h; exact sameExcept_setDt s _
  | ldStVx x => cases h; exact sameExcept_setSt s _
  | ldBcd x => cases h; exact sameExcept_writeAtIndex s _
  | stRegs x => cases h; exact sameExcept_exec_stRegs s x
  | ldRegs x => cases h; exact sameExcept_exec_ldRegs s x

/-- Above Vx, LD_REGS loads nothing. -/
theorem sameRegsExcept_exec_ldRegs (s : State) (x : Reg) :
    SameRegsExcept (instrRegsWritten (.ldRegs x)) s ((s.loadRegsUpTo x).bumpIndex x) := by
  intro r hr
  have hlt : ¬ r ≤ x := by simpa [instrRegsWritten] using hr
  rw [State.bumpIndex, State.reg_setI, State.reg_loadRegsUpTo, if_neg hlt]

/-- The registers each instruction leaves unchanged; those without V in their frame write none. -/
theorem exec_sameRegsExcept (h : exec i s = .next t) : SameRegsExcept (instrRegsWritten i) s t := by
  by_cases hv : Field.v ∈ instrMayWrite i
  case neg => exact (exec_sameExcept h).regs hv _
  cases i with
  | ldImm x kk | addImm x kk => cases h; exact sameRegsExcept_setReg s x _
  | ldReg x y => cases h; exact sameRegsExcept_setReg s x _
  | ldVxDt x => cases h; exact sameRegsExcept_setReg s x _
  | or x y | and x y | xor x y | addReg x y => cases h; exact sameRegsExcept_resultThenFlag s x _ _
  | sub x y | shr x y | subn x y | shl x y => cases h; exact sameRegsExcept_flagThenResult s x _ _
  | rnd x kk => cases h; exact sameRegsExcept_setReg s x _
  | drw x y n => cases h; exact sameRegsExcept_setReg (s.setFb _) vf _
  | ldRegs x => cases h; exact sameRegsExcept_exec_ldRegs s x
  | _ => simp [instrMayWrite] at hv

/-- An address outside the block an instruction stores reads as before; those without MEM in their frame store
nothing. -/
theorem exec_read_of_ne (h : exec i s = .next t) {a : Addr} (ha : ∀ k < instrStoreCount i, a ≠ s.indexAddr k) :
    t.mem.read a = s.mem.read a := by
  by_cases hm : Field.mem ∈ instrMayWrite i
  case neg => exact exec_sameExcept h .mem hm a
  cases i with
  | ldBcd x => cases h; exact State.read_writeAtIndex_ne s (by simp [bcdDigits]) ha
  | stRegs x =>
    cases h
    exact State.read_writeAtIndex_ne s (by rw [State.length_regsUpTo]; omega) (by rwa [State.length_regsUpTo])
  | _ => simp [instrMayWrite] at hm

/-- Settles O11: the frame by pieces of state gives those of V and MEM for all but the instructions that write them. -/
theorem everyInstructionWritesOnlyWhatItsRuleNames : Obligations.EveryInstructionWritesOnlyWhatItsRuleNames :=
  fun _ _ _ h => ⟨exec_sameExcept h, exec_sameRegsExcept h, fun _ => exec_read_of_ne h⟩

end

end Sys2Proof.Machine
end

section
/-! SUPPORT. What a step does: the faults, PC, the invariant of steps and schedules
(40_control_flow.md R80 to R92, 60_exceptions.md R181 to R188). -/

namespace Sys2Proof.Machine

/-! ### Faults of a step -/

section
variable (s : State)

theorem State.advance_pc : s.advance.pc = s.pc + 2 := rfl

theorem State.advance_stack : s.advance.stack = s.stack := rfl

end

section
variable {s : State}

theorem legalOpcode_eq_false_iff {op : Opcode} : legalOpcode op = false ↔ ∃ e, decode op = .error e := by
  rw [← Bool.not_eq_true, ← exists_decode_iff_legalOpcode]
  cases decode op <;> simp

/-- A step completes, or faults on an illegal opcode, or faults as its instruction does. -/
theorem step_cases (s : State) :
    (∃ t, step s = .next t) ∨
    (s.status = .running ∧ ∃ e, decode s.fetchOpcode = .error e ∧
      step s = .fault (.invalidOpcode s.fetchOpcode s.pc)) ∨
    (s.status = .running ∧ ∃ i f, decode s.fetchOpcode = .ok i ∧ StackFault i s.advance f ∧ step s = .fault f) := by
  cases hs : s.status with
  | awaitingKey x => exact .inl ⟨s, step_of_awaiting hs⟩
  | running =>
    cases hd : decode s.fetchOpcode with
    | error e => exact .inr (.inl ⟨rfl, e, rfl, step_of_error hs hd⟩)
    | ok i =>
      rw [step_of_decode hs hd]
      obtain ht | ⟨f, hf⟩ := exec_next_or_stackFault i s.advance
      · exact .inl ht
      · exact .inr (.inr ⟨rfl, i, f, rfl, hf, exec_of_stackFault hf⟩)

/-- The stack fault of the decoded instruction, in terms of the opcode that was fetched. -/
theorem stackFault_advance_iff {i : Instr} {f : Fault} (hd : decode s.fetchOpcode = .ok i) :
    StackFault i s.advance f ↔
      (s.fetchOpcode = 0x00EE ∧ s.stack = [] ∧ f = .stackUnderflow 0x00EE s.pc) ∨
      (∃ nnn, s.fetchOpcode = encode (.call nnn) ∧ 16 ≤ s.stack.length ∧
        f = .stackOverflow s.fetchOpcode s.pc) := by
  have hop : s.fetchOpcode = encode i := decode_eq_ok_iff.1 hd
  have hret : s.fetchOpcode = 0x00EE ↔ i = .ret := by
    rw [hop]
    exact encode_injective.eq_iff (b := .ret)
  have hcall (nnn : Addr) : s.fetchOpcode = encode (.call nnn) ↔ i = .call nnn := by
    rw [hop, encode_injective.eq_iff]
  simp only [StackFault, hret, hcall, State.instrAddr_advance, ← hop, State.advance_stack]

/-- Settles O8: an opcode is illegal exactly when it does not decode, and a decoded instruction faults only as RET
or CALL. -/
theorem stepFaultsInExactlyThreeCases : Obligations.StepFaultsInExactlyThreeCases := by
  intro s f
  rw [legalOpcode_eq_false_iff]
  cases hs : s.status with
  | awaitingKey x => simp [step_of_awaiting hs]
  | running =>
    cases hd : decode s.fetchOpcode with
    | error e =>
      have hnot (i : Instr) : s.fetchOpcode ≠ encode i := fun h => by
        rw [h, decode_encode] at hd
        cases hd
      have hret : s.fetchOpcode ≠ 0x00EE := hnot .ret
      rw [step_of_error hs hd, Host.Outcome.fault.injEq, eq_comm]
      simp only [hret, hnot, false_and, exists_false, or_false, Except.error.injEq, exists_eq', true_and]
    | ok i =>
      simp [step_of_decode hs hd, exec_fault_iff, stackFault_advance_iff hd]

/-- Settles O10: a step completes or faults. -/
theorem noStepIsRefused : Obligations.NoStepIsRefused := by
  intro s r
  obtain ⟨t, ht⟩ | ⟨-, e, -, he⟩ | ⟨-, i, f, -, -, hf⟩ := step_cases s
  · simp [ht]
  · simp [he]
  · simp [hf]

/-- Settles O6: the concatenation of the two bytes is the opcode that is fetched. -/
theorem stepRunsTheDecodedInstruction : Obligations.StepRunsTheDecodedInstruction :=
  fun _ _ hs hd => step_of_decode hs hd

/-- In a key wait the event `step()` answers Waiting and leaves the state. -/
theorem deliver_step_of_awaiting (font : Config.Font) {x : Reg} (hs : s.status = .awaitingKey x) :
    s.deliver font .step = (s, .waiting) := by
  simp only [State.deliver, step_of_awaiting hs, State.settle, State.stepResult, hs]

/-- Settles O7: the step of a key wait is a next state equal to the old one. -/
theorem stepInAKeyWaitChangesNothing : Obligations.StepInAKeyWaitChangesNothing :=
  fun _ font _ hs => ⟨step_of_awaiting hs, deliver_step_of_awaiting font hs⟩

/-- The step of a machine with a next instruction runs it. -/
theorem step_of_nextInstr {i : Instr} (h : s.nextInstr = some i) : step s = exec i s.advance := by
  obtain ⟨hrun, hdec⟩ := nextInstr_eq_some.1 h
  exact step_of_decode hrun hdec

end

/-! ### PC after a step -/

section
variable (s : State)

/-- A skip taken by the instruction at PC adds 4 to it in all (40_control_flow.md R92). -/
theorem State.pc_skipIf_advance {c : Bool} {p : Prop} [Decidable p] (hc : c = true ↔ p) :
    (s.advance.skipIf c).pc = if p then s.pc + 4 else s.pc + 2 := by
  rw [State.skipIf_eq, State.setPc_pc, State.advance_pc, BitVec.add_assoc]
  simp only [hc]
  rfl

variable {s} {t : State} {i : Instr}

theorem pcAfter_of_not_mem (h : Field.pc ∉ instrMayWrite i) : s.pcAfter i = s.pc + 2 := by
  cases i <;> simp_all [instrMayWrite, State.pcAfter]

/-- An instruction without PC in its frame leaves it past the fetch. -/
theorem pc_of_exec_advance (h : exec i s.advance = .next t) : t.pc = s.pcAfter i := by
  by_cases hpc : Field.pc ∈ instrMayWrite i
  case neg =>
    rw [pcAfter_of_not_mem hpc]
    exact exec_sameExcept h .pc hpc
  cases i with
  | ret =>
    obtain ⟨below, a, happ, rfl⟩ := exec_ret_next h
    have hstack : s.stack = below ++ [a] := happ
    simp [State.pcAfter, hstack]
  | call nnn =>
    obtain ⟨-, rfl⟩ := exec_call_next h
    rfl
  | jp nnn | jpV0 nnn => cases h; rfl
  | seImm x kk => cases h; exact s.pc_skipIf_advance beq_iff_eq
  | sneImm x kk => cases h; exact s.pc_skipIf_advance bne_iff_ne
  | seReg x y => cases h; exact s.pc_skipIf_advance beq_iff_eq
  | sneReg x y => cases h; exact s.pc_skipIf_advance bne_iff_ne
  | skp x => cases h; exact s.pc_skipIf_advance Iff.rfl
  | sknp x => cases h; exact s.pc_skipIf_advance (Bool.not_eq_true' _ ▸ Iff.rfl)
  | _ => simp [instrMayWrite] at hpc

/-- Settles O9: the step runs its instruction on the state past the fetch. -/
theorem pcAfterEveryCompletedStep : Obligations.PcAfterEveryCompletedStep := fun _ _ _ hi ht =>
  pc_of_exec_advance ((step_of_nextInstr hi).symm.trans ht)

end

/-! ### The invariant -/

section
variable {s t : State} {i : Instr}

/-- Memory after an instruction is as before or has one block written. -/
theorem exec_mem_cases (h : exec i s = .next t) : t.mem = s.mem ∨ ∃ bs, t.mem = s.mem.writeBlock s.i bs := by
  cases i with
  | ret => obtain ⟨below, a, -, rfl⟩ := exec_ret_next h; exact .inl rfl
  | call nnn => obtain ⟨-, rfl⟩ := exec_call_next h; exact .inl rfl
  | seImm x kk | sneImm x kk => cases h; rw [State.skipIf_eq]; exact .inl rfl
  | seReg x y | sneReg x y => cases h; rw [State.skipIf_eq]; exact .inl rfl
  | skp x | sknp x => cases h; rw [State.skipIf_eq]; exact .inl rfl
  | ldBcd x | stRegs x => cases h; exact .inr ⟨_, rfl⟩
  | _ => cases h; exact .inl rfl

/-- STACK never outgrows its depth: RET shortens it and CALL completes only below 16. -/
theorem exec_stack_length_le (h : exec i s = .next t) (hs : s.stack.length ≤ 16) : t.stack.length ≤ 16 := by
  by_cases hk : Field.stack ∈ instrMayWrite i
  case neg => rwa [show t.stack = s.stack from exec_sameExcept h .stack hk]
  cases i with
  | ret =>
    obtain ⟨below, a, happ, rfl⟩ := exec_ret_next h
    rw [happ, List.length_append] at hs
    exact Nat.le_of_add_right_le hs
  | call nnn =>
    obtain ⟨hlt, rfl⟩ := exec_call_next h
    simpa using hlt
  | _ => simp [instrMayWrite] at hk

theorem exec_romImg (h : exec i s = .next t) : t.romImg = s.romImg :=
  exec_sameExcept h .romImg (by cases i <;> simp [instrMayWrite])

theorem exec_inv (h : exec i s = .next t) (hs : s.Inv) : t.Inv := by
  obtain ⟨hmem, hstack, hrom⟩ := hs
  refine ⟨?_, exec_stack_length_le h hstack, by rwa [exec_romImg h]⟩
  obtain he | ⟨bs, he⟩ := exec_mem_cases h <;> rw [he]
  · exact hmem
  · exact Memory.wf_writeBlock s.i bs hmem

theorem step_inv (h : step s = .next t) (hs : s.Inv) : t.Inv := by
  obtain ⟨x, -, rfl⟩ | ⟨-, i, -, -, hexec⟩ := step_next_cases h
  · exact hs
  · exact exec_inv hexec hs

/-- Settles O13: in a key wait nothing changes, and otherwise the instruction that runs keeps the invariant. -/
theorem everyStepKeepsTheInvariant : Obligations.EveryStepKeepsTheInvariant := fun _ _ hs h => step_inv h hs

/-- Settles O12: nothing is listed in memory, on STACK or in ROMIMG. -/
theorem resetStateMeetsTheInvariant : Obligations.ResetStateMeetsTheInvariant :=
  ⟨rfl, Nat.zero_le _, Nat.zero_le _⟩

end

end Sys2Proof.Machine
end

section
/-! SUPPORT. The arithmetic and shift instructions with their flags, and RND (41_register_alu.md R107 to R112). -/

namespace Sys2Proof.Machine

/-! ### Flags and results as numbers -/

section
variable (a b : Byte)

theorem flagByte_decide (p : Prop) [Decidable p] : flagByte (decide p) = if p then 1 else 0 := by
  by_cases h : p <;> simp [flagByte, h]

theorem carryFlag_eq : carryFlag a b = if a.toNat + b.toNat > 255 then 1 else 0 := flagByte_decide _

theorem notBorrowFlag_eq : notBorrowFlag a b = if a.toNat ≥ b.toNat then 1 else 0 := flagByte_decide _

theorem toNat_notBorrowFlag : (notBorrowFlag a b).toNat = if a.toNat ≥ b.toNat then 1 else 0 := by
  simp only [notBorrowFlag, toNat_flagByte, decide_eq_true_eq, ge_iff_le]

theorem toNat_sub_byte : (a - b).toNat = (a.toNat + 256 - b.toNat) % 256 := by
  have hb := b.isLt
  rw [BitVec.toNat_sub, show 2 ^ 8 - b.toNat + a.toNat = a.toNat + 256 - b.toNat by omega]

theorem toNat_shiftRight_one : (a >>> 1).toNat = a.toNat / 2 := by
  rw [BitVec.toNat_ushiftRight, Nat.shiftRight_eq_div_pow]

theorem toNat_shiftLeft_one : (a <<< 1).toNat = a.toNat * 2 % 256 := by
  rw [BitVec.toNat_shiftLeft, Nat.shiftLeft_eq]

end

/-! ### The sum and the carry -/

/-- Settles O17: the sum is written first, the carry of the old registers last. -/
theorem addRegWritesSumThenCarry : Obligations.AddRegWritesSumThenCarry := by
  intro s x y
  obtain ⟨t, hexec, hsum, hflag, hframe⟩ := exec_writes_result_then_flag (exec_addReg s x y)
  exact ⟨t, hexec, fun hx => by rw [hsum hx, BitVec.toNat_add], by rw [hflag, carryFlag_eq], hframe⟩

/-! ### The flag in VF, then the result in Vx -/

section
variable {s : State} {x : Reg}

/-- An instruction that executes as a flag write and then a result write completes with the result in Vx, computed
with the flag in VF, the flag in VF unless x is 15, and nothing else changed. -/
theorem exec_writes_flag_then_result {i : Instr} {fl : Byte} {res : State → Byte}
    (hi : exec i s = .next (s.flagThenResult x fl res)) :
    ∃ t, exec i s = .next t ∧ SameRegsExcept [x, vf] s t ∧ SameExcept [.v] s t ∧
      (x ≠ vf → t.reg vf = fl) ∧ t.reg x = res (s.setReg vf fl) := by
  refine ⟨_, hi, sameRegsExcept_flagThenResult s x fl res, sameExcept_flagThenResult s x fl res, fun hx => ?_, ?_⟩
  · rw [State.reg_flagThenResult, if_neg (Ne.symm hx), if_pos rfl]
  · rw [State.reg_flagThenResult, if_pos rfl]

end

/-- SUB and SUBN take the difference after the flag is in VF, so VF as an operand is the flag. -/
theorem exec_writes_borrow_then_difference {s : State} {x p q : Reg} {i : Instr}
    (hi : exec i s = .next (s.flagThenResult x (notBorrowFlag (s.reg p) (s.reg q)) fun u => u.reg p - u.reg q)) :
    ∃ t, exec i s = .next t ∧ SameRegsExcept [x, vf] s t ∧ SameExcept [.v] s t ∧
      (x ≠ vf → (t.reg vf).toNat = (notBorrowFlag (s.reg p) (s.reg q)).toNat) ∧
      (t.reg x).toNat = ((if p = vf then (notBorrowFlag (s.reg p) (s.reg q)).toNat else (s.reg p).toNat) + 256 -
        (if q = vf then (notBorrowFlag (s.reg p) (s.reg q)).toNat else (s.reg q).toNat)) % 256 := by
  obtain ⟨t, hexec, hregs, hframe, hflag, hres⟩ := exec_writes_flag_then_result hi
  refine ⟨t, hexec, hregs, hframe, fun hx => by rw [hflag hx], ?_⟩
  simp only [hres, toNat_sub_byte, State.reg_setReg, apply_ite BitVec.toNat]

/-- Settles O18: each case of x and y at 15 says which operands are the flag. -/
theorem subWritesFlagThenDifference : Obligations.SubWritesFlagThenDifference := by
  rintro s x y a b f rfl rfl rfl
  obtain ⟨t, hexec, hregs, hframe, hflag, hdiff⟩ := exec_writes_borrow_then_difference (exec_sub s x y)
  rw [toNat_notBorrowFlag] at hflag hdiff
  refine ⟨t, hexec, hregs, hframe, fun hx hy => ?_, fun hx hy => ?_, fun hx hy => ?_, fun hx hy => ?_⟩
  · exact ⟨hflag hx, by rw [hdiff, if_neg hx, if_neg hy]⟩
  · subst hy
    exact ⟨hflag hx, by rw [hdiff, if_neg hx, if_pos rfl]⟩
  · subst hx
    rw [hdiff, if_pos rfl, if_neg hy]
  · subst hx hy
    rw [hdiff, if_pos rfl]
    omega

/-- Settles O19: as for SUB, with the operands exchanged. -/
theorem subnWritesFlagThenReverseDifference : Obligations.SubnWritesFlagThenReverseDifference := by
  rintro s x y a b f rfl rfl rfl
  obtain ⟨t, hexec, hregs, hframe, hflag, hdiff⟩ := exec_writes_borrow_then_difference (exec_subn s x y)
  rw [toNat_notBorrowFlag] at hflag hdiff
  refine ⟨t, hexec, hregs, hframe, fun hx hy => ?_, fun hx hy => ?_, fun hx hy => ?_, fun hx hy => ?_⟩
  · exact ⟨hflag hx, by rw [hdiff, if_neg hx, if_neg hy]⟩
  · subst hy
    exact ⟨hflag hx, by rw [hdiff, if_neg hx, if_pos rfl]⟩
  · subst hx
    rw [hdiff, if_pos rfl, if_neg hy]
  · subst hx hy
    rw [hdiff, if_pos rfl]
    omega

/-- Settles O20: at x = 15 the register shifted is the flag, which SHR shifts to 0 and SHL to twice its bit. -/
theorem shiftsWriteTheBitShiftedOutThenVx : Obligations.ShiftsWriteTheBitShiftedOutThenVx := by
  intro s x y
  constructor
  · obtain ⟨t, hexec, hregs, hframe, hflag, hres⟩ := exec_writes_flag_then_result (exec_shr s x y)
    refine ⟨t, hexec, hregs, hframe, fun hx => ?_, ?_⟩
    · rw [hflag hx, hres, State.reg_setReg_ne s _ hx, toNat_lowBitFlag, toNat_shiftRight_one]
      exact ⟨rfl, rfl⟩
    · rintro rfl
      rw [hres, State.reg_setReg_same, toNat_shiftRight_one, toNat_lowBitFlag]
      omega
  · obtain ⟨t, hexec, hregs, hframe, hflag, hres⟩ := exec_writes_flag_then_result (exec_shl s x y)
    refine ⟨t, hexec, hregs, hframe, fun hx => ?_, ?_⟩
    · rw [hflag hx, hres, State.reg_setReg_ne s _ hx, toNat_highBitFlag, toNat_shiftLeft_one]
      exact ⟨rfl, rfl⟩
    · rintro rfl
      rw [hres, State.reg_setReg_same, toNat_shiftLeft_one, toNat_highBitFlag]
      omega

/-! ### RND -/

/-- A byte under a mask has no bit outside the mask. -/
theorem and_and_not_eq_zero (r kk : Byte) : r &&& kk &&& ~~~kk = 0 := by
  rw [BitVec.and_assoc, BitVec.and_not_self]
  exact BitVec.and_zero

/-- Settles O22: the draw is one write of Vx and one of the counter. -/
theorem rndWritesTheDrawUnderItsMask : Obligations.RndWritesTheDrawUnderItsMask := by
  intro s x kk
  have hreg : (s.maskDraw x kk (Config.drawByte s.draws)).reg x = Config.drawByte s.draws &&& kk :=
    State.reg_setReg_same s x _
  exact ⟨_, exec_rnd s x kk, hreg, by rw [hreg, and_and_not_eq_zero], rfl, sameRegsExcept_setReg s x _,
    sameExcept_maskDraw s x kk _⟩

end Sys2Proof.Machine
end

section
/-! SUPPORT. The instructions that store and load at I, and memory as the array of its writes
(42_index_memory.md R123 to R126, 20_memory.md R50, R52). -/

namespace Sys2Proof.Machine

/-! ### The block at I -/

section
variable (s : State) (x : Reg)

theorem State.indexAddr_zero : s.indexAddr 0 = s.i := BitVec.add_zero s.i

theorem State.indexAddr_one : s.indexAddr 1 = s.i + 1 := rfl

theorem State.indexAddr_two : s.indexAddr 2 = s.i + 2 := rfl

theorem length_bcdDigits (b : Byte) : (bcdDigits b).length = 3 := rfl

/-- LD_BCD leaves digit `k` at the `k`-th address from I on. -/
theorem read_bcd {k : Nat} (hk : k < 3) :
    (s.writeAtIndex (bcdDigits (s.reg x))).mem.read (s.indexAddr k) = (bcdDigits (s.reg x))[k] :=
  s.read_writeAtIndex (by rw [length_bcdDigits]; omega) hk

/-- The block of ST_REGS is far shorter than memory, so it does not overlap itself. -/
theorem State.length_regsUpTo_le : (s.regsUpTo x).length ≤ 4096 := by
  rw [State.length_regsUpTo]
  omega

/-- ST_REGS leaves Vk at the `k`-th address from I on. -/
theorem read_stRegs {k : Reg} (hk : k ≤ x) :
    ((s.writeAtIndex (s.regsUpTo x)).bumpIndex x).mem.read (s.indexAddr k.val) = s.reg k := by
  have hlt : k.val < (s.regsUpTo x).length := by
    rw [State.length_regsUpTo]
    exact Nat.lt_succ_of_le hk
  calc ((s.writeAtIndex (s.regsUpTo x)).bumpIndex x).mem.read (s.indexAddr k.val)
    _ = (s.regsUpTo x)[k.val] := s.read_writeAtIndex (s.length_regsUpTo_le x) hlt
    _ = s.reg k := s.getElem_regsUpTo x k hk

/-- LD_REGS leaves the byte at the `k`-th address from I on in Vk, and the registers above Vx as they were. -/
theorem State.reg_ldRegs (r : Reg) : ((s.loadRegsUpTo x).bumpIndex x).reg r =
    if r ≤ x then s.mem.read (s.indexAddr r.val) else s.reg r := by
  rw [State.bumpIndex, State.reg_setI, State.reg_loadRegsUpTo]

end

/-- Settles O24: the three digits are the block at I; the addresses I, I + 1 and I + 2 are all it writes. -/
theorem bcdStoresThreeDecimalDigits : Obligations.BcdStoresThreeDecimalDigits := by
  intro s x
  refine ⟨_, exec_ldBcd s x, ?_, ?_, ?_, fun a h0 h1 h2 => ?_, sameExcept_writeAtIndex s _⟩
  · rw [← s.indexAddr_zero, read_bcd s x (by decide)]
    exact BitVec.toNat_udiv
  · rw [← s.indexAddr_one, read_bcd s x (by decide)]
    exact BitVec.toNat_umod.trans (congrArg (· % 10) BitVec.toNat_udiv)
  · rw [← s.indexAddr_two, read_bcd s x (by decide)]
    exact BitVec.toNat_umod
  · refine exec_read_of_ne (exec_ldBcd s x) fun k hk => ?_
    obtain rfl | rfl | rfl : k = 0 ∨ k = 1 ∨ k = 2 := by
      simp only [instrStoreCount] at hk
      omega
    · rwa [s.indexAddr_zero]
    · exact h1
    · exact h2

/-- Settles O25: the block of registers at I, then I past it. -/
theorem storeRegistersStoresV0ToVx : Obligations.StoreRegistersStoresV0ToVx := by
  intro s x
  refine ⟨_, exec_stRegs s x, fun k => read_stRegs s x, fun a ha => ?_, State.toNat_indexAddr _ _,
    sameExcept_exec_stRegs s x⟩
  exact exec_read_of_ne (exec_stRegs s x) fun k hk =>
    ha ⟨k, Nat.lt_of_lt_of_le hk x.isLt⟩ (Nat.le_of_lt_succ hk)

/-- Settles O26: each register up to Vx is read from its address, then I goes past the block. -/
theorem loadRegistersLoadsV0ToVx : Obligations.LoadRegistersLoadsV0ToVx := by
  intro s x
  refine ⟨_, exec_ldRegs s x, fun k hk => ?_, fun k hk => ?_, State.toNat_indexAddr _ _, sameExcept_exec_ldRegs s x⟩
  · rw [s.reg_ldRegs, if_pos hk]
  · rw [s.reg_ldRegs, if_neg (not_le.2 hk)]

/-- Settles O27: LD_REGS reads Vk where ST_REGS left it, since both count from the same I. -/
theorem storedRegistersLoadBack : Obligations.StoredRegistersLoadBack := by
  intro s t u x ht hi hmem
  cases ht
  have haddr (k : Nat) : u.indexAddr k = s.indexAddr k := by rw [State.indexAddr, hi, State.indexAddr]
  refine ⟨_, exec_ldRegs u x, fun k hk => ?_, rfl, haddr _⟩
  rw [u.reg_ldRegs, if_pos hk, hmem, haddr, read_stRegs s x hk]

/-! ### Memory as the array of its writes -/

/-- After any writes to any memory, a read gives the last byte written to its address, or the byte before. -/
theorem Memory.read_foldl_write (m : Memory) (ws : List (Addr × Byte)) (a : Addr) :
    Memory.read (ws.foldl (fun m w => m.write w.1 w.2) m) a =
      ((ws.reverse.find? (fun w => w.1 = a)).map Prod.snd).getD (m.read a) := by
  induction ws using List.reverseRecOn with
  | nil => rfl
  | append_singleton ws w ih =>
    rw [List.foldl_append, List.foldl_cons, List.foldl_nil, Memory.read_write, List.reverse_append,
      List.reverse_singleton, List.singleton_append, List.find?_cons]
    by_cases h : w.1 = a
    · simp [h]
    · simp [h, Ne.symm h, ih]

/-- Settles O28: the law of any memory, at the memory of the newly made machine. -/
theorem memoryReadsTheLatestWrite : Obligations.MemoryReadsTheLatestWrite :=
  fun _ ws a => Memory.read_foldl_write _ ws a

/-! ### A store and the next fetch -/

section
variable (t : State) (a : Addr)

theorem highByte_fetchOpcode : (State.fetchOpcode { t with pc := a }).extractLsb' 8 8 = t.mem.read a :=
  BitVec.extractLsb'_append_eq_left

theorem lowByte_fetchOpcode : (State.fetchOpcode { t with pc := a - 1 }).extractLsb' 0 8 = t.mem.read a :=
  BitVec.extractLsb'_append_eq_right.trans (congrArg t.mem.read (BitVec.sub_add_cancel a 1))

variable {t a}

/-- The byte an address reads as is the high byte of the opcode fetched there and the low byte of the one fetched an
address before (20_memory.md R43, R52). -/
theorem fetchOpcode_bytes_of_read {b : Byte} (h : t.mem.read a = b) :
    (State.fetchOpcode { t with pc := a }).extractLsb' 8 8 = b ∧
    (State.fetchOpcode { t with pc := a - 1 }).extractLsb' 0 8 = b :=
  ⟨(highByte_fetchOpcode t a).trans h, (lowByte_fetchOpcode t a).trans h⟩

end

/-- Settles O29: a fetch reads the memory the store left. -/
theorem aStoreIsSeenByTheNextFetch : Obligations.AStoreIsSeenByTheNextFetch := by
  intro s t x
  constructor
  · intro ht k hk
    cases ht
    exact fetchOpcode_bytes_of_read (read_stRegs s x hk)
  · intro ht k d hd
    cases ht
    obtain ⟨hk, rfl⟩ := List.getElem?_eq_some_iff.1 hd
    exact fetchOpcode_bytes_of_read (read_bcd s x hk)

end Sys2Proof.Machine
end

section
/-! SUPPORT. CALL and RET, the key skips and the key wait, and the display instructions with the flag table
(40_control_flow.md R84, R86, 44_keypad_timer.md R160 to R164, 43_display.md R141 to R146, 10_state.md R32). -/

namespace Sys2Proof.Machine

/-! ### CALL and RET -/

/-- Settles O31: below full depth CALL writes STACK and PC. -/
theorem callPushesTheReturnAddress : Obligations.CallPushesTheReturnAddress := fun s nnn h =>
  ⟨_, exec_call_of_lt nnn h, rfl, rfl, sameExcept_setStack_setPc s _ nnn⟩

/-- Settles O32: RET writes STACK and PC, and the fault of a step on an empty STACK leaves the state before it. -/
theorem retPopsTheReturnAddress : Obligations.RetPopsTheReturnAddress := by
  refine ⟨fun s below a h => ⟨_, exec_ret_of_append h, rfl, rfl, sameExcept_setStack_setPc s below a⟩,
    fun s font hs hop hnil => ?_⟩
  exact deliver_step_of_fault font ((stepFaultsInExactlyThreeCases s _).2 ⟨hs, .inr (.inl ⟨hop, hnil, rfl⟩)⟩)

/-- Settles O33: RET pops what CALL pushed, so STACK and PC are written back as they were. -/
theorem retAfterCallComesBack : Obligations.RetAfterCallComesBack := fun s nnn h =>
  ⟨_, _, exec_call_of_lt nnn h, exec_ret_of_append (below := s.stack) (a := s.pc) rfl, SameExcept.refl [] s⟩

/-! ### Key skips and the key wait -/

/-- The low nibble of Vx is the index of the key it names. -/
theorem State.keyOf_eq {s : State} {x : Reg} {k : Key} (hk : k.val = (s.reg x).toNat % 16) : s.keyOf x = k :=
  Fin.ext (by rw [hk, State.keyOf, keyIndex, Fin.val_ofNat, Nat.mod_mod])

/-- Settles O40: each of the two executes as a skip on the flag of its key. -/
theorem keySkipsTestTheKeyOfVx : Obligations.KeySkipsTestTheKeyOfVx := by
  intro s x k hk
  obtain rfl := State.keyOf_eq hk
  exact ⟨exec_skip (exec_skp s x) Iff.rfl, exec_skip (exec_sknp s x) (Bool.not_eq_true' _ ▸ Iff.rfl)⟩

/-- Settles O41: LD_VX_KEY writes LASTKEY and STATUS. -/
theorem ldVxKeyBeginsTheWait : Obligations.LdVxKeyBeginsTheWait := fun s x =>
  ⟨_, exec_ldVxKey s x, rfl, rfl, sameExcept_exec_ldVxKey s x⟩

/-! ### Sprites -/

/-- Settles O35: CLS writes FB and DRAW. -/
theorem clsClearsEveryPixel : Obligations.ClsClearsEveryPixel := fun s =>
  ⟨_, exec_cls s, Framebuffer.pixel_blank, rfl, sameExcept_exec_cls s⟩

/-- Settles O37: a sprite is the list of its pixels, each reduced mod 64 and mod 32. -/
theorem spriteCoordinatesWrap : Obligations.SpriteCoordinatesWrap := by
  intro x0 y0 rows f
  have hpixels : spritePixels x0 y0 rows = spritePixels (x0 % 64) (y0 % 32) rows :=
    spritePixels_congr (Nat.mod_mod x0 64).symm (Nat.mod_mod y0 32).symm rows
  rw [drawSprite_eq_foldl, drawSprite_eq_foldl, hpixels]

/-- Settles O38: each covered pixel is toggled twice, and the second draw meets it as the first left it. -/
theorem drawingTwiceRestoresTheFramebuffer : Obligations.DrawingTwiceRestoresTheFramebuffer := by
  intro x0 y0 rows f hlen
  have h : rows.length ≤ 32 := by omega
  constructor
  · refine Framebuffer.ext_pixel fun r c => ?_
    by_cases hc : SpriteCovers x0 y0 rows r c
    · rw [pixel_drawSprite_of_covers _ h hc, pixel_drawSprite_of_covers f h hc, Bool.not_not]
    · rw [pixel_drawSprite_of_not_covers _ h hc, pixel_drawSprite_of_not_covers f h hc]
  · rw [hit_drawSprite _ h]
    refine exists_congr fun r => exists_congr fun c => and_congr_right fun hc => ?_
    rw [pixel_drawSprite_of_covers f h hc, Bool.not_eq_true']

/-! ### DRW -/

/-- DRW leaves the sprite's framebuffer, its collision bit in VF, and DRAW set. -/
theorem exec_drw_draws (s : State) (x y : Reg) (n : Fin 16) :
    ∃ t, exec (.drw x y n) s = .next t ∧ t.fb = (s.sprite x y n).fb ∧ t.reg vf = flagByte (s.sprite x y n).hit ∧
      t.draw = true ∧ SameRegsExcept [vf] s t ∧ SameExcept [.v, .fb, .draw] s t :=
  ⟨_, exec_drw s x y n, rfl, State.reg_setReg_same (s.setFb _) vf _, rfl, sameRegsExcept_setReg (s.setFb _) vf _,
    sameExcept_exec_drw s _ _⟩

/-- Settles O39: the sprite is the n bytes at I, at most 15 rows. -/
theorem drwDrawsTheSpriteAtI : Obligations.DrwDrawsTheSpriteAtI := by
  intro s x y n rows hrows
  obtain ⟨t, hexec, hfb, hflag, hdraw, hregs, hframe⟩ := exec_drw_draws s x y n
  have h : rows.length ≤ 32 := by
    rw [hrows, List.length_map, List.length_range]
    omega
  have hsprite : s.sprite x y n = drawSprite (s.reg x).toNat (s.reg y).toNat rows s.fb := by
    rw [State.sprite, State.readAtIndex_eq_map, hrows]
  rw [hsprite] at hfb hflag
  refine ⟨t, hexec, fun r c hc => ?_, fun r c hc => ?_, fun hhit => ?_, fun hmiss => ?_, hdraw, hregs, hframe⟩
  · rw [hfb, pixel_drawSprite_of_covers s.fb h hc]
  · rw [hfb, pixel_drawSprite_of_not_covers s.fb h hc]
  · rw [hflag, (hit_drawSprite s.fb h).2 hhit]
    rfl
  · have hno : (drawSprite (s.reg x).toNat (s.reg y).toNat rows s.fb).hit = false := by
      rw [← Bool.not_eq_true, hit_drawSprite s.fb h]
      rintro ⟨r, c, hc, hpix⟩
      rw [hmiss r c hc] at hpix
      cases hpix
    rw [hflag, hno]
    rfl

/-- VF after DRW says whether a pixel went from 1 to 0, since only covered pixels change and each is toggled. -/
theorem exec_drw_flag (s : State) (x y : Reg) (n : Fin 16) :
    ∃ t, exec (.drw x y n) s = .next t ∧
      ((∃ r c, s.fb.pixel r c = true ∧ t.fb.pixel r c = false) → t.reg vf = 1) ∧
      ((∀ r c, s.fb.pixel r c = true → t.fb.pixel r c = true) → t.reg vf = 0) := by
  obtain ⟨t, hexec, htoggled, hkept, hhit, hmiss, -⟩ := drwDrawsTheSpriteAtI s x y n _ rfl
  refine ⟨t, hexec, ?_, fun hon => hmiss fun r c hc => ?_⟩
  · rintro ⟨r, c, hs, ht⟩
    refine hhit ⟨r, c, ?_, hs⟩
    by_contra hc
    rw [hkept r c hc, hs] at ht
    cases ht
  · by_contra hs
    have hs : s.fb.pixel r c = true := Bool.eq_true_of_not_eq_false hs
    have ht := htoggled r c hc
    rw [hon r c hs, hs] at ht
    cases ht

/-! ### The flag table -/

section
variable {s : State} {x : Reg} {i : Instr} {fl : Byte}

theorem exec_flag_last {res : Byte} (hi : exec i s = .next (s.resultThenFlag x res fl)) :
    ∃ t, exec i s = .next t ∧ t.reg vf = fl :=
  ⟨_, hi, s.reg_vf_resultThenFlag res fl⟩

theorem exec_flag_first {res : State → Byte} (hx : x ≠ vf) (hi : exec i s = .next (s.flagThenResult x fl res)) :
    ∃ t, exec i s = .next t ∧ t.reg vf = fl := by
  obtain ⟨t, hexec, -, -, hflag, -⟩ := exec_writes_flag_then_result hi
  exact ⟨t, hexec, hflag hx⟩

end

/-- Settles O21: for x other than 15 VF keeps the flag in both orders of result and flag. -/
theorem flagTableOfVF : Obligations.FlagTableOfVF := by
  intro s x y n kk hx
  refine ⟨exec_flag_last (exec_or s x y), exec_flag_last (exec_and s x y), exec_flag_last (exec_xor s x y),
    ?carry, ?sub, ?subn, ?shr, ?shl, exec_drw_flag s x y n,
    ⟨_, exec_addImm s x kk, State.reg_setReg_ne s _ (Ne.symm hx)⟩, ⟨_, exec_addIndex s x, rfl⟩⟩
  case carry =>
    rw [← carryFlag_eq]
    exact exec_flag_last (exec_addReg s x y)
  case sub =>
    rw [← notBorrowFlag_eq]
    exact exec_flag_first hx (exec_sub s x y)
  case subn =>
    rw [← notBorrowFlag_eq]
    exact exec_flag_first hx (exec_subn s x y)
  case shr =>
    obtain ⟨t, hexec, hflag⟩ := exec_flag_first hx (exec_shr s x y)
    exact ⟨t, hexec, by rw [hflag, toNat_lowBitFlag]⟩
  case shl =>
    obtain ⟨t, hexec, hflag⟩ := exec_flag_first hx (exec_shl s x y)
    exact ⟨t, hexec, by rw [hflag, toNat_highBitFlag]⟩

end Sys2Proof.Machine
end

section
/-! SUPPORT. What each event gives back, what it leaves unchanged, and the invariant along every schedule
(60_exceptions.md R181 to R203, 70_reset_and_hazards.md R210 to R213). -/

namespace Sys2Proof.Machine

/-! ### The events, one by one -/

section
variable (s : State) (font : Config.Font)

/-- The event `step()` leads where its step leads, or ends in a fault and leaves the state. -/
theorem deliver_step_cases :
    (∃ t, step s = .next t ∧ s.deliver font .step = (t, s.stepResult)) ∨
    (∃ f, step s = .fault f ∧ s.deliver font .step = (s, .fault f)) := by
  cases h : step s with
  | next t => exact .inl ⟨t, rfl, by simp only [State.deliver, h, State.settle]⟩
  | fault f => exact .inr ⟨f, rfl, deliver_step_of_fault font h⟩
  | refused r => exact absurd h (noStepIsRefused s r)

/-- The event `loadRom` copies an image that fits and refuses a longer one. -/
theorem deliver_loadRom_cases (bytes : List Byte) :
    (bytes.length ≤ 3584 ∧ s.deliver font (.loadRom bytes) = (s.copyRom bytes, .done)) ∨
    (s.deliver font (.loadRom bytes) = (s, .fault (.romTooLarge bytes.length))) := by
  by_cases h : bytes.length ≤ 3584
  · exact .inl ⟨h, deliver_loadRom_of_fits s font h⟩
  · exact .inr (deliver_loadRom_of_too_long s font (Nat.lt_of_not_le h))

theorem deliver_press (k : Key) : s.deliver font (.press k) = (s.press k, .done) := rfl

theorem deliver_release (k : Key) : s.deliver font (.release k) = (s.release k, .done) := rfl

theorem deliver_construct : s.deliver font .construct = (s.construct font, .done) := rfl

theorem deliver_reset : s.deliver font .reset = (s.resetKeepingRom font, .done) := rfl

theorem stepResult_ne_fault (f : Fault) : s.stepResult ≠ .fault f := by
  unfold State.stepResult
  split <;> simp

theorem stepResult_ne_toneRequest : s.stepResult ≠ .toneRequest := by
  unfold State.stepResult
  split <;> simp

end

/-! ### Keys -/

section
variable (s : State) (k : Key)

theorem sameExcept_setKey (b : Bool) : SameExcept [.key] s (s.setKey k b) := by
  simp [SameExcept, forall_field, Field.Same, State.setKey, State.reg]

variable {s}

/-- Outside a key wait a press writes KEY and LASTKEY. -/
theorem press_of_running (hs : s.status = .running) : s.press k = (s.setKey k true).setLastKey (some k) := by
  have hkeys : ((s.setKey k true).setLastKey (some k)).status = .running := hs
  simp only [State.press, State.endKeyWait, hkeys]

/-- In a key wait a press also fills the waiting register and runs the machine again. -/
theorem press_of_awaiting {x : Reg} (hs : s.status = .awaitingKey x) : s.press k =
    ((((s.setKey k true).setLastKey (some k)).setReg x (BitVec.ofNat 8 k.val)).setStatus .running) := by
  have hkeys : ((s.setKey k true).setLastKey (some k)).status = .awaitingKey x := hs
  simp only [State.press, State.endKeyWait, hkeys]

theorem sameExcept_press_of_running (hs : s.status = .running) : SameExcept [.key, .lastKey] s (s.press k) := by
  rw [press_of_running k hs]
  exact (sameExcept_setKey s k true).append (sameExcept_setLastKey _ _)

theorem sameExcept_press_of_awaiting {x : Reg} (hs : s.status = .awaitingKey x) :
    SameExcept [.key, .lastKey, .v, .status] s (s.press k) := by
  rw [press_of_awaiting k hs]
  exact (((sameExcept_setKey s k true).append (sameExcept_setLastKey _ _)).append
    (sameExcept_setReg _ x _)).append (sameExcept_setStatus _ _)

variable (s)

theorem sameExcept_press : SameExcept [.key, .lastKey, .v, .status] s (s.press k) := by
  cases hs : s.status with
  | running => exact (sameExcept_press_of_running k hs).mono (by simp)
  | awaitingKey x => exact sameExcept_press_of_awaiting k hs

/-- A press writes its flag, LASTKEY and STATUS alike in and out of a key wait. -/
theorem press_key_lastKey_status :
    (s.press k).key = (s.setKey k true).key ∧ (s.press k).lastKey = some k ∧ (s.press k).status = .running := by
  cases hs : s.status with
  | running =>
    rw [press_of_running k hs]
    exact ⟨rfl, rfl, hs⟩
  | awaitingKey x =>
    rw [press_of_awaiting k hs]
    exact ⟨rfl, rfl, rfl⟩

/-- A press in a key wait loads its index into the waiting register alone. -/
theorem press_regs_of_awaiting {s : State} {x : Reg} (hs : s.status = .awaitingKey x) :
    ((s.press k).reg x).toNat = k.val ∧ SameRegsExcept [x] s (s.press k) := by
  have hk : k.val < 2 ^ 8 := by omega
  rw [press_of_awaiting k hs]
  refine ⟨?_, sameRegsExcept_setReg ((s.setKey k true).setLastKey (some k)) x _⟩
  rw [State.reg_setStatus, State.reg_setReg_same, BitVec.toNat_ofNat, Nat.mod_eq_of_lt hk]

end

/-- Settles O49: the flag, LASTKEY and STATUS are written in either STATUS, the waiting register only in a wait. -/
theorem pressSetsItsKeyAndEndsAWait : Obligations.PressSetsItsKeyAndEndsAWait := by
  intro s font k
  obtain ⟨hkey, hlast, hstatus⟩ := press_key_lastKey_status s k
  have hdown (j : Key) : (s.press k).keyDown j = if j = k then true else s.keyDown j := by
    rw [State.keyDown_congr hkey, State.keyDown_setKey]
  refine ⟨_, deliver_press s font k, by rw [hdown, if_pos rfl], fun j hj => by rw [hdown, if_neg hj], hlast, hstatus,
    sameExcept_press_of_running k, fun x hs => ?_⟩
  obtain ⟨hreg, hregs⟩ := press_regs_of_awaiting k hs
  exact ⟨hreg, hregs, sameExcept_press_of_awaiting k hs⟩

/-- Settles O50: a release is one write of its flag. -/
theorem releaseClearsItsKeyAlone : Obligations.ReleaseClearsItsKeyAlone := fun s font k =>
  ⟨_, deliver_release s font k, by rw [State.release, State.keyDown_setKey, if_pos rfl],
    fun j hj => by rw [State.release, State.keyDown_setKey, if_neg hj], sameExcept_release s k⟩

/-! ### Frames of all events -/

section
variable (s : State) (font : Config.Font)

theorem sameExcept_advance : SameExcept [.pc] s s.advance := sameExcept_setPc s _

theorem instrMayWrite_subset_step (i : Instr) : [.pc] ++ instrMayWrite i ⊆ Event.step.mayWrite := by
  cases i <;> simp [instrMayWrite, Event.mayWrite]

theorem sameExcept_step {s t : State} (h : step s = .next t) : SameExcept Event.step.mayWrite s t := by
  obtain ⟨x, -, rfl⟩ | ⟨-, i, -, -, hexec⟩ := step_next_cases h
  · exact SameExcept.refl _ _
  · exact ((sameExcept_advance s).append (exec_sameExcept hexec)).mono (instrMayWrite_subset_step i)

theorem sameExcept_construct : SameExcept Event.construct.mayWrite s (s.construct font) := by
  simp [SameExcept, forall_field, Field.Same, Event.mayWrite, State.construct]

theorem sameExcept_reset : SameExcept Event.reset.mayWrite s (s.resetKeepingRom font) := by
  simp [SameExcept, forall_field, Field.Same, Event.mayWrite, State.resetKeepingRom, State.copyRom, State.construct]

theorem deliver_sameExcept (e : Event) : SameExcept e.mayWrite s (s.deliver font e).1 := by
  cases e with
  | step =>
    obtain ⟨t, ht, hd⟩ | ⟨f, -, hd⟩ := deliver_step_cases s font <;> rw [hd]
    · exact sameExcept_step ht
    · exact SameExcept.refl _ s
  | tick60 => exact sameExcept_tick60 s
  | press k => exact sameExcept_press s k
  | release k => exact sameExcept_release s k
  | readFramebuffer => exact SameExcept.refl _ s
  | takeDrawFlag => exact sameExcept_clearDraw s
  | construct => exact sameExcept_construct s font
  | loadRom bytes =>
    obtain ⟨-, hd⟩ | hd := deliver_loadRom_cases s font bytes <;> rw [hd]
    · exact sameExcept_copyRom s bytes
    · exact SameExcept.refl _ s
  | reset => exact sameExcept_reset s font

end

/-- Settles O59: each event's own frame; a step's is that of its instruction with PC. -/
theorem everyEventWritesOnlyWhatItsRuleNames : Obligations.EveryEventWritesOnlyWhatItsRuleNames :=
  deliver_sameExcept

/-! ### Faults and tones -/

section
variable {s : State} {font : Config.Font} {e : Event} {f : Fault}

/-- Only a step and a loadRom can fault, and both leave the state then. -/
theorem deliver_state_of_fault (h : (s.deliver font e).2 = .fault f) : (s.deliver font e).1 = s := by
  cases e with
  | step =>
    obtain ⟨t, -, hd⟩ | ⟨g, -, hd⟩ := deliver_step_cases s font <;> rw [hd] at h ⊢
    exact absurd h (stepResult_ne_fault s f)
  | loadRom bytes =>
    obtain ⟨-, hd⟩ | hd := deliver_loadRom_cases s font bytes <;> rw [hd] at h ⊢
    cases h
  | tick60 =>
    rw [deliver_tick60] at h
    split at h <;> cases h
  | _ => cases h

end

/-- Settles O57: an event that faults leaves the state it began with. -/
theorem aFaultLeavesEverythingUnchanged : Obligations.AFaultLeavesEverythingUnchanged :=
  fun _ _ _ _ => deliver_state_of_fault

section
variable {s : State} {font : Config.Font} {e : Event} {r : Response}

/-- An event that leaves the state and gives back `r` does so however often it is repeated. -/
theorem runSchedule_replicate_of_deliver (h : s.deliver font e = (s, r)) (n : Nat) :
    s.runSchedule font (List.replicate n e) = s ∧
    (s.reports font (List.replicate n e)).map Report.response = List.replicate n r := by
  induction n with
  | zero => exact ⟨rfl, rfl⟩
  | succ n ih =>
    obtain ⟨hrun, hreports⟩ := ih
    simp only [List.replicate_succ, State.runSchedule, State.reports, List.map_cons, report_response, h]
    exact ⟨hrun, by rw [hreports]⟩

end

/-- Settles O58: the faulting step leaves the state and so meets the same fault again. -/
theorem aFaultRepeats : Obligations.AFaultRepeats := fun _ _ _ n h =>
  runSchedule_replicate_of_deliver (Prod.ext (deliver_state_of_fault h) h) n

/-- Settles O48: no response but a tick's can be a tone, and a tick's is one exactly when ST is 1. -/
theorem aTonesOnlyCauseIsTheExpiryOfST : Obligations.ATonesOnlyCauseIsTheExpiryOfST := by
  intro s font e
  cases e with
  | tick60 =>
    rw [deliver_tick60]
    by_cases h : s.st = 1 <;> simp [h]
  | step =>
    obtain ⟨t, -, hd⟩ | ⟨f, -, hd⟩ := deliver_step_cases s font <;> rw [hd]
    · simp [stepResult_ne_toneRequest]
    · simp
  | loadRom bytes =>
    obtain ⟨-, hd⟩ | hd := deliver_loadRom_cases s font bytes <;> rw [hd] <;> simp
  | _ => simp [State.deliver]

/-! ### Ticks in a row -/

section
variable (s : State) (font : Config.Font) (n : Nat)

theorem runSchedule_ticks_succ : s.runSchedule font (List.replicate (n + 1) .tick60) =
    s.tick60.runSchedule font (List.replicate n .tick60) := rfl

/-- The tone of the first tick, then those of the others. -/
theorem count_tones_succ :
    ((s.reports font (List.replicate (n + 1) .tick60)).map Report.response).count .toneRequest =
      ((s.tick60.reports font (List.replicate n .tick60)).map Report.response).count .toneRequest +
        (if s.st.toNat = 1 then 1 else 0) := by
  have hone : s.st = 1 ↔ s.st.toNat = 1 := BitVec.toNat_inj.symm
  rw [List.replicate_succ, State.reports, List.map_cons, List.count_cons, report_response, deliver_tick60]
  simp only [hone]
  by_cases h : s.st.toNat = 1 <;> simp [h]

end

/-- Settles O47: by induction on the number of ticks; the tone comes with the tick that meets ST at 1. -/
theorem ticksCountDownAndAskForOneTone : Obligations.TicksCountDownAndAskForOneTone := by
  intro s font n
  induction n generalizing s with
  | zero => exact ⟨rfl, rfl, (if_neg fun h => absurd h.1 (Nat.not_lt.2 h.2)).symm⟩
  | succ n ih =>
    obtain ⟨hdt, hst, htone⟩ := ih s.tick60
    rw [runSchedule_ticks_succ, count_tones_succ, hdt, hst, htone, s.tick60_dt, s.tick60_st, toNat_countDown,
      toNat_countDown]
    refine ⟨by omega, by omega, ?_⟩
    split_ifs <;> omega

/-! ### The invariant along every schedule -/

section
variable {s : State} {font : Config.Font}

theorem copyRom_inv {bytes : List Byte} (hfits : bytes.length ≤ 3584) (hs : s.Inv) : (s.copyRom bytes).Inv := by
  obtain ⟨hmem, hstack, -⟩ := hs
  exact ⟨Memory.wf_writeBlock _ bytes hmem, hstack, hfits⟩

theorem construct_inv (s : State) (font : Config.Font) : (s.construct font).Inv :=
  ⟨Memory.wf_ofFont font, Nat.zero_le _, Nat.zero_le _⟩

/-- The invariant looks at memory, STACK and ROMIMG alone. -/
theorem inv_of_eq {t : State} (hmem : t.mem = s.mem) (hstack : t.stack = s.stack) (hrom : t.romImg = s.romImg)
    (hs : s.Inv) : t.Inv := by
  rwa [State.Inv, hmem, hstack, hrom]

theorem press_inv (k : Key) (hs : s.Inv) : (s.press k).Inv := by
  cases h : s.status with
  | running => rw [press_of_running k h]; exact inv_of_eq rfl rfl rfl hs
  | awaitingKey x => rw [press_of_awaiting k h]; exact inv_of_eq rfl rfl rfl hs

theorem deliver_inv (e : Event) (hs : s.Inv) : (s.deliver font e).1.Inv := by
  cases e with
  | step =>
    obtain ⟨t, ht, hd⟩ | ⟨f, -, hd⟩ := deliver_step_cases s font <;> rw [hd]
    · exact step_inv ht hs
    · exact hs
  | press k => exact press_inv k hs
  | construct => exact construct_inv s font
  | loadRom bytes =>
    obtain ⟨hfits, hd⟩ | hd := deliver_loadRom_cases s font bytes <;> rw [hd]
    · exact copyRom_inv hfits hs
    · exact hs
  | reset =>
    obtain ⟨-, -, hrom⟩ := hs
    exact copyRom_inv hrom (construct_inv s font)
  | tick60 | readFramebuffer | takeDrawFlag => exact inv_of_eq rfl rfl rfl hs
  | release k => exact inv_of_eq rfl rfl rfl hs

end

/-- Settles O14: every event keeps the invariant, so every finite schedule and every time of an infinite one do. -/
theorem everyScheduleKeepsTheInvariant : Obligations.EveryScheduleKeepsTheInvariant := fun _ _ hs =>
  ⟨fun _ => runSchedule_induction hs fun e _ _ => deliver_inv e,
    fun es => stateAt_induction hs fun n _ => deliver_inv (es n)⟩

end Sys2Proof.Machine
end

section
/-! SUPPORT. STATUS and the key wait, timers over many steps, and the pieces of state no step reads
(10_state.md R22 to R30, 44_keypad_timer.md R163, R164). -/

namespace Sys2Proof.Machine

/-! ### STATUS -/

section
variable {s t : State} {font : Config.Font} {e : Event} {i : Instr} {x : Reg}

theorem awaiting_of_exec (h : exec i s = .next t) (ht : t.status = .awaitingKey x) :
    s.status = .awaitingKey x ∨ i = .ldVxKey x := by
  by_cases hm : Field.status ∈ instrMayWrite i
  case neg => exact .inl ((exec_sameExcept h .status hm).symm.trans ht)
  cases i with
  | ldVxKey y =>
    cases h
    cases ht
    exact .inr rfl
  | _ => simp [instrMayWrite] at hm

theorem awaiting_of_step (h : step s = .next t) (ht : t.status = .awaitingKey x) :
    s.status = .awaitingKey x ∨ s.nextInstr = some (.ldVxKey x) := by
  obtain ⟨y, -, rfl⟩ | ⟨-, i, -, hi, hexec⟩ := step_next_cases h
  · exact .inl ht
  · obtain hs | rfl := awaiting_of_exec hexec ht
    · exact .inl hs
    · exact .inr hi

/-- An event without STATUS in its frame leaves it. -/
theorem deliver_status (h : Field.status ∉ e.mayWrite) : (s.deliver font e).1.status = s.status :=
  deliver_sameExcept s font e .status h

/-- A wait that is on after an event was on before it, or the event was the step that began it. -/
theorem awaiting_of_deliver (h : (s.deliver font e).1.status = .awaitingKey x) :
    s.status = .awaitingKey x ∨ (e = .step ∧ s.nextInstr = some (.ldVxKey x)) := by
  cases e with
  | step =>
    obtain ⟨t, ht, hd⟩ | ⟨f, -, hd⟩ := deliver_step_cases s font <;> rw [hd] at h
    · exact (awaiting_of_step ht h).imp_right fun hi => ⟨rfl, hi⟩
    · exact .inl h
  | press k =>
    obtain ⟨-, -, hrun⟩ := press_key_lastKey_status s k
    exact Status.noConfusion (hrun.symm.trans h)
  | construct | reset => cases h
  | tick60 | readFramebuffer | takeDrawFlag => exact .inl h
  | release k => exact .inl h
  | loadRom bytes => exact .inl ((deliver_status (by simp [Event.mayWrite])).symm.trans h)

/-- The events that can end a key wait. -/
def Event.EndsWait (e : Event) : Prop := (∃ k, e = .press k) ∨ e = .construct ∨ e = .reset

/-- In a key wait every other event leaves STATUS and V, and PC unless it is a loadRom. -/
theorem deliver_of_awaiting (hs : s.status = .awaitingKey x) (he : ¬ e.EndsWait) :
    (s.deliver font e).1.status = .awaitingKey x ∧ SameRegsExcept [] s (s.deliver font e).1 ∧
      ((∀ bytes, e ≠ .loadRom bytes) → (s.deliver font e).1.pc = s.pc) := by
  have hframe := deliver_sameExcept s font e
  cases e with
  | step =>
    rw [deliver_step_of_awaiting font hs]
    exact ⟨hs, fun _ _ => rfl, fun _ => rfl⟩
  | press k => exact absurd (.inl ⟨k, rfl⟩) he
  | construct => exact absurd (.inr (.inl rfl)) he
  | reset => exact absurd (.inr (.inr rfl)) he
  | loadRom bytes =>
    exact ⟨(deliver_status (by simp [Event.mayWrite])).trans hs, hframe.regs (by simp [Event.mayWrite]) [],
      fun h => absurd rfl (h bytes)⟩
  | tick60 | readFramebuffer | takeDrawFlag => exact ⟨hs, fun _ _ => rfl, fun _ => rfl⟩
  | release k => exact ⟨hs, fun _ _ => rfl, fun _ => rfl⟩

end

/-- Settles O43: the report carries the STATUS the event leaves, so each clause is one of the state after it. -/
theorem statusChangesOnlyAsTheSpecSays : Obligations.StatusChangesOnlyAsTheSpecSays := by
  intro s font e x
  refine ⟨awaiting_of_deliver, fun hs hrun => ?_, fun hs => ?_, rfl⟩
  · by_contra he
    obtain ⟨hwait, -⟩ := deliver_of_awaiting (font := font) hs he
    exact Status.noConfusion (hrun.symm.trans hwait)
  · have hd := deliver_step_of_awaiting font hs
    simp only [State.report, hd, hs, and_self]

/-! ### A whole key wait -/

section
variable {s : State} {font : Config.Font} {x : Reg} {es : List Event}

/-- A schedule with no event that ends a wait keeps it on, with V as it was. -/
theorem runSchedule_of_awaiting (hs : s.status = .awaitingKey x) (hes : ∀ e ∈ es, ¬ e.EndsWait) :
    (s.runSchedule font es).status = .awaitingKey x ∧ SameRegsExcept [] s (s.runSchedule font es) := by
  refine runSchedule_induction (P := fun u => u.status = .awaitingKey x ∧ SameRegsExcept [] s u)
    ⟨hs, fun _ _ => rfl⟩ fun e he u ⟨hu, hregs⟩ => ?_
  obtain ⟨hwait, hkept, -⟩ := deliver_of_awaiting (font := font) hu (hes e he)
  exact ⟨hwait, fun r hr => (hkept r hr).trans (hregs r hr)⟩

/-- Without a loadRom it keeps PC too. -/
theorem runSchedule_pc_of_awaiting (hs : s.status = .awaitingKey x) (hes : ∀ e ∈ es, ¬ e.EndsWait)
    (hload : ∀ bytes, Event.loadRom bytes ∉ es) : (s.runSchedule font es).pc = s.pc := by
  have hkept := runSchedule_induction (font := font) (es := es)
    (P := fun u => u.status = .awaitingKey x ∧ u.pc = s.pc) ⟨hs, rfl⟩ fun e he u ⟨hu, hpc⟩ => by
      obtain ⟨hwait, -, hkeep⟩ := deliver_of_awaiting (font := font) hu (hes e he)
      exact ⟨hwait, (hkeep fun bytes h => hload bytes (h ▸ he)).trans hpc⟩
  exact hkept.2

end

/-- Settles O42: no event of the schedule ends the wait, and the press that follows meets it still on. -/
theorem aKeyWaitLastsUntilAPress : Obligations.AKeyWaitLastsUntilAPress := by
  intro s font x es k hs hpress hconstruct hreset
  have hes : ∀ e ∈ es, ¬ e.EndsWait := by
    rintro e he (⟨j, rfl⟩ | rfl | rfl)
    · exact hpress j he
    · exact hconstruct he
    · exact hreset he
  obtain ⟨hwait, hregs⟩ := runSchedule_of_awaiting (font := font) hs hes
  obtain ⟨hreg, hpressed⟩ := press_regs_of_awaiting k hwait
  obtain ⟨-, -, hrun⟩ := press_key_lastKey_status (s.runSchedule font es) k
  have hlast : s.runSchedule font (es ++ [.press k]) = (s.runSchedule font es).press k :=
    runSchedule_append s font es [.press k]
  rw [hlast]
  exact ⟨hwait, hregs, runSchedule_pc_of_awaiting hs hes, hrun, hreg,
    fun r hr => (hpressed r hr).trans (hregs r List.not_mem_nil)⟩

/-! ### Timers over many steps -/

section
variable {s t : State}

theorem run_succ_of_next {u : State} (h : step s = .next u) (n : Nat) :
    Host.Core.run core (n + 1) s = Host.Core.run core n u := by
  have hcore : core.step s = .next u := h
  simp only [Host.Core.run, hcore]

theorem run_succ_of_fault {f : Fault} (h : step s = .fault f) (n : Nat) :
    Host.Core.run core (n + 1) s = .fault f := by
  have hcore : core.step s = .fault f := h
  simp only [Host.Core.run, hcore]

/-- What a step from every state with `P` keeps, a run through states with `P` keeps. -/
theorem run_keeps {β : Type} {g : State → β} {P : State → Prop}
    (hstep : ∀ u v : State, P u → step u = .next v → g v = g u) {n : Nat}
    (h : Host.Core.run core n s = .next t)
    (hP : ∀ k < n, ∀ u, Host.Core.run core k s = .next u → P u) : g t = g s := by
  induction n generalizing s with
  | zero =>
    cases h
    rfl
  | succ n ih =>
    cases hs : step s with
    | next u =>
      have hrest : g t = g u := ih ((run_succ_of_next hs n).symm.trans h) fun k hk v hv =>
        hP (k + 1) (Nat.succ_lt_succ hk) v ((run_succ_of_next hs k).trans hv)
      exact hrest.trans (hstep s u (hP 0 (Nat.succ_pos n) s rfl) hs)
    | fault f => cases (run_succ_of_fault hs n).symm.trans h
    | refused r => exact absurd hs (noStepIsRefused s r)

/-- A step that runs no LD_DT_VX leaves DT. -/
theorem step_dt (hi : ∀ x, s.nextInstr ≠ some (.ldDtVx x)) (h : step s = .next t) : t.dt = s.dt := by
  obtain ⟨y, -, rfl⟩ | ⟨-, i, -, hnext, hexec⟩ := step_next_cases h
  · rfl
  · exact exec_sameExcept hexec .dt (by cases i <;> simp_all [instrMayWrite])

/-- A step that runs no LD_ST_VX leaves ST. -/
theorem step_st (hi : ∀ x, s.nextInstr ≠ some (.ldStVx x)) (h : step s = .next t) : t.st = s.st := by
  obtain ⟨y, -, rfl⟩ | ⟨-, i, -, hnext, hexec⟩ := step_next_cases h
  · rfl
  · exact exec_sameExcept hexec .st (by cases i <;> simp_all [instrMayWrite])

end

/-- Settles O45: each step of the run leaves the timer. -/
theorem stepsNeverCountATimer : Obligations.StepsNeverCountATimer := fun _ _ _ h =>
  ⟨run_keeps (fun _ _ => step_dt) h, run_keeps (fun _ _ => step_st) h⟩

end Sys2Proof.Machine
end

section
/-! SUPPORT. The state after construct, loadRom and reset (10_state.md R33, 20_memory.md R48,
70_reset_and_hazards.md R210 to R213). -/

namespace Sys2Proof.Machine

/-! ### The newly made machine -/

/-- Memory after construct: the font, then zeros (20_memory.md R48). -/
theorem constructByte_eq (font : Config.Font) (a : Nat) :
    constructByte font a = if a < 0x50 then font.toList.getD a 0 else 0 := by
  split
  · rfl
  · next h => exact Memory.constructByte_of_le font (Nat.le_of_not_lt h)

section
variable (s : State) (font : Config.Font)

@[simp] theorem State.reg_fresh (r : Reg) : (State.fresh font).reg r = 0 := by
  simp [State.fresh, State.reset, State.reg, Vector.get_eq_getElem]

@[simp] theorem State.keyDown_fresh (k : Key) : (State.fresh font).keyDown k = false := by
  simp [State.fresh, State.setMem, State.reset, State.keyDown, Vector.get_eq_getElem]

theorem State.read_fresh (a : Addr) :
    (State.fresh font).mem.read a = if a.toNat < 0x50 then font.toList.getD a.toNat 0 else 0 :=
  (Memory.read_ofFont font a).trans (constructByte_eq font a.toNat)

/-- Every piece of state of the newly made machine but the draw counter (10_state.md R33). -/
theorem State.fresh_values :
    (∀ r, (State.fresh font).reg r = 0) ∧ (State.fresh font).i = 0 ∧ (State.fresh font).pc = 0x200 ∧
    (State.fresh font).stack = [] ∧ (State.fresh font).dt = 0 ∧ (State.fresh font).st = 0 ∧
    (∀ a : Addr, (State.fresh font).mem.read a = if a.toNat < 0x50 then font.toList.getD a.toNat 0 else 0) ∧
    (∀ r c, (State.fresh font).fb.pixel r c = false) ∧ (State.fresh font).draw = false ∧
    (∀ k, (State.fresh font).keyDown k = false) ∧ (State.fresh font).lastKey = none ∧
    (State.fresh font).status = .running ∧ (State.fresh font).romImg = [] :=
  ⟨State.reg_fresh font, rfl, rfl, rfl, rfl, rfl, State.read_fresh font, Framebuffer.pixel_blank, rfl,
    State.keyDown_fresh font, rfl, rfl, rfl⟩

end

/-- Settles O52: all three are the newly made machine but for the draw counter. -/
theorem constructGivesTheResetValues : Obligations.ConstructGivesTheResetValues := by
  rintro s t font (⟨rfl, rfl⟩ | rfl | rfl)
  · rw [← fresh_default]
    exact State.fresh_values Config.font
  · exact State.fresh_values font
  · exact State.fresh_values font

/-! ### A program copied into memory -/

section
variable (s : State) (font : Config.Font) {bytes : List Byte}

/-- Outside the image memory is as before: below 0x200 the distance from 0x200 wraps past the image. -/
theorem read_copyRom_of_outside (h : bytes.length ≤ 3584) {a : Addr}
    (ha : a.toNat < 0x200 ∨ 0x200 + bytes.length ≤ a.toNat) : (s.copyRom bytes).mem.read a = s.mem.read a := by
  have hdist : bytes.length ≤ (a - Config.romBase).toNat := by
    obtain hlow | hhigh := ha
    · have hwrap : (a - Config.romBase).toNat = a.toNat + 3584 := by
        unfold Config.romBase
        bv_omega
      omega
    · rw [toNat_sub_romBase (by omega)]
      omega
  rw [State.copyRom, State.setRomImg_mem, State.setPc_mem, State.setMem_mem,
    Memory.read_writeBlock _ _ _ _ (by omega), List.getElem?_eq_none hdist, Option.getD_none]

/-- The memory of a machine made with a FONT and loaded with a program: font, zeros, program, zeros
(20_memory.md R48). -/
theorem read_construct_copyRom (h : bytes.length ≤ 3584) (a : Addr) :
    ((s.construct font).copyRom bytes).mem.read a =
      if a.toNat < 0x50 then font.toList.getD a.toNat 0
      else if a.toNat < 0x200 then 0
      else bytes.getD (a.toNat - 0x200) 0 := by
  have hmade : (s.construct font).mem.read a = if a.toNat < 0x50 then font.toList.getD a.toNat 0 else 0 :=
    State.read_fresh font a
  by_cases hlow : a.toNat < 0x200
  · rw [read_copyRom_of_outside _ h (.inl hlow), hmade, if_pos hlow]
  · have hfont : ¬ a.toNat < 0x50 := by omega
    rw [if_neg hfont] at hmade
    rw [if_neg hfont, if_neg hlow]
    by_cases hin : a.toNat - 0x200 < bytes.length
    · rw [read_copyRom _ h (Nat.le_of_not_lt hlow) hin, List.getD_eq_getElem _ _ hin]
    · rw [read_copyRom_of_outside _ h (.inr (by omega)), hmade, List.getD_eq_default _ _ (Nat.le_of_not_lt hin)]

theorem runSchedule_construct_loadRom (h : bytes.length ≤ 3584) :
    s.runSchedule font [.construct, .loadRom bytes] = (s.construct font).copyRom bytes := by
  simp only [State.runSchedule, deliver_construct, deliver_loadRom_of_fits _ font h]

end

/-- Settles O53: past the end of the program its bytes read as the default 0. -/
theorem memoryMapAfterLoad : Obligations.MemoryMapAfterLoad := by
  intro s font rom a h
  rw [runSchedule_construct_loadRom s font h, read_construct_copyRom s font h]
  refine if_congr Iff.rfl rfl (if_congr Iff.rfl rfl ?_)
  split
  · rfl
  · next hend => exact List.getD_eq_default _ _ (by omega)

/-- Settles O54: byte `j` is inside the image, at an address that does not wrap. -/
theorem loadRomCopiesTheProgramAlone : Obligations.LoadRomCopiesTheProgramAlone := by
  intro s font rom h
  refine ⟨_, deliver_loadRom_of_fits s font h, fun j b hj => ?_, fun a => read_copyRom_of_outside s h, rfl, rfl,
    sameExcept_copyRom s rom⟩
  obtain ⟨hlt, rfl⟩ := List.getElem?_eq_some_iff.1 hj
  have haddr : (BitVec.ofNat 12 (0x200 + j)).toNat = 0x200 + j := by
    rw [BitVec.toNat_ofNat, Nat.mod_eq_of_lt (by omega)]
  have hdist : (BitVec.ofNat 12 (0x200 + j)).toNat - 0x200 = j := by omega
  rw [read_copyRom s h (by omega) (by omega)]
  simp only [hdist]

/-! ### Reset -/

section
variable {s : State} {font : Config.Font}

/-- ROMIMG is written by construct and loadRom alone. -/
theorem deliver_romImg {e : Event} (hc : e ≠ .construct) (hl : ∀ bytes, e ≠ .loadRom bytes) :
    (s.deliver font e).1.romImg = s.romImg := by
  refine deliver_sameExcept s font e .romImg ?_
  cases e with
  | construct => exact absurd rfl hc
  | loadRom bytes => exact absurd rfl (hl bytes)
  | _ => simp [Event.mayWrite]

theorem runSchedule_romImg {es : List Event} (hc : Event.construct ∉ es) (hl : ∀ bytes, Event.loadRom bytes ∉ es) :
    (s.runSchedule font es).romImg = s.romImg :=
  runSchedule_induction (P := fun u => u.romImg = s.romImg) rfl fun _ he _ hu =>
    (deliver_romImg (fun h => hc (h ▸ he)) fun bytes h => hl bytes (h ▸ he)).trans hu

/-- What construct makes depends on the state before it by the draw counter alone. -/
theorem construct_copyRom_eq (s u : State) (font : Config.Font) (bytes : List Byte) :
    (u.construct font).copyRom bytes = { (s.construct font).copyRom bytes with draws := u.draws } := rfl

end

/-- Settles O56: reset is construct and a copy of ROMIMG, which nothing since the load has written. -/
theorem resetGivesBackTheLoadedMachine : Obligations.ResetGivesBackTheLoadedMachine := by
  intro s font
  refine ⟨⟨_, deliver_reset s font, rfl, State.reg_fresh font, rfl, rfl, rfl, rfl, rfl, Framebuffer.pixel_blank, rfl,
    State.keyDown_fresh font, rfl, rfl, read_construct_copyRom s font⟩, fun e => deliver_romImg,
    fun rom es h hc hl => ?_⟩
  have hsplit : Event.construct :: .loadRom rom :: es ++ [.reset] = [.construct, .loadRom rom] ++ (es ++ [.reset]) :=
    rfl
  rw [hsplit, runSchedule_append, runSchedule_append, runSchedule_construct_loadRom s font h]
  have himg : (((s.construct font).copyRom rom).runSchedule font es).romImg = rom := runSchedule_romImg hc hl
  generalize ((s.construct font).copyRom rom).runSchedule font es = u at himg
  refine ⟨u.draws, ?_⟩
  calc u.runSchedule font [.reset]
    _ = (u.construct font).copyRom u.romImg := rfl
    _ = (u.construct font).copyRom rom := by rw [himg]
    _ = { (s.construct font).copyRom rom with draws := u.draws } := construct_copyRom_eq s u font rom

end Sys2Proof.Machine
end

section
/-! SUPPORT. No step reads DRAW, LASTKEY, ROMIMG or ST, and only SKP and SKNP read KEY
(10_state.md R22, R26, R27, R28, R30). -/

namespace Sys2Proof.Machine

/-- `s` with other values in the pieces of state that no step, or only SKP and SKNP, read. -/
def State.withHidden (s : State) (d : Bool) (l : Option Key) (m : List Byte) (b : Byte) (k : Vector Bool 16) : State :=
  { s with draw := d, lastKey := l, romImg := m, st := b, key := k }

section
variable {s t : State} {i : Instr} (d : Bool) (l : Option Key) (m : List Byte) (b : Byte) {k : Vector Bool 16}

theorem sameExcept_withHidden (s : State) (k : Vector Bool 16) :
    SameExcept [.draw, .lastKey, .romImg, .st, .key] s (s.withHidden d l m b k) := by
  simp [SameExcept, forall_field, Field.Same, State.withHidden, State.reg]

theorem skipIf_withHidden (s : State) (c : Bool) (k : Vector Bool 16) :
    (s.withHidden d l m b k).skipIf c = (s.skipIf c).withHidden d l m b k := by
  rw [State.skipIf_eq, State.skipIf_eq]
  rfl

/-- An instruction that completes does so whatever the hidden pieces are, with the same next state but for them. -/
theorem exec_withHidden (hk : k = s.key ∨ ∀ x, i ≠ .skp x ∧ i ≠ .sknp x) (h : exec i s = .next t) :
    ∃ d' l' m' b' k', exec i (s.withHidden d l m b k) = .next (t.withHidden d' l' m' b' k') := by
  cases i with
  | ret =>
    obtain ⟨below, a, happ, rfl⟩ := exec_ret_next h
    have happ' : (s.withHidden d l m b k).stack = below ++ [a] := happ
    exact ⟨d, l, m, b, k, exec_ret_of_append happ'⟩
  | call nnn =>
    obtain ⟨hlt, rfl⟩ := exec_call_next h
    have hlt' : (s.withHidden d l m b k).stack.length < 16 := hlt
    exact ⟨d, l, m, b, k, exec_call_of_lt nnn hlt'⟩
  | seImm x kk | sneImm x kk => cases h; exact ⟨d, l, m, b, k, congrArg _ (skipIf_withHidden d l m b s _ k)⟩
  | seReg x y | sneReg x y => cases h; exact ⟨d, l, m, b, k, congrArg _ (skipIf_withHidden d l m b s _ k)⟩
  | skp x | sknp x =>
    cases h
    obtain rfl | hne := hk
    · exact ⟨d, l, m, b, s.key, congrArg _ (skipIf_withHidden d l m b s _ s.key)⟩
    · simp at hne
  | _ => cases h; exact ⟨_, _, _, _, _, rfl⟩

theorem step_withHidden_next
    (hk : k = s.key ∨ ∀ x, s.nextInstr ≠ some (.skp x) ∧ s.nextInstr ≠ some (.sknp x)) (h : step s = .next t) :
    ∃ u, step (s.withHidden d l m b k) = .next u ∧ SameExcept [.draw, .lastKey, .romImg, .st, .key] t u := by
  obtain ⟨x, hs, rfl⟩ | ⟨hs, i, hd, hi, hexec⟩ := step_next_cases h
  · have hs' : (t.withHidden d l m b k).status = .awaitingKey x := hs
    exact ⟨_, step_of_awaiting hs', sameExcept_withHidden d l m b t k⟩
  · have hs' : (s.withHidden d l m b k).status = .running := hs
    have hd' : decode (s.withHidden d l m b k).fetchOpcode = .ok i := hd
    have hk' : k = s.key ∨ ∀ x, i ≠ .skp x ∧ i ≠ .sknp x := by simpa [hi] using hk
    obtain ⟨d', l', m', b', k', hu⟩ := exec_withHidden (s := s.advance) d l m b hk' hexec
    exact ⟨_, (step_of_decode hs' hd').trans hu, sameExcept_withHidden d' l' m' b' t k'⟩

/-- The conditions of the three faults look at STATUS, PC, MEM and STACK alone. -/
theorem step_withHidden_fault {f : Fault} (h : step s = .fault f) : step (s.withHidden d l m b k) = .fault f :=
  (stepFaultsInExactlyThreeCases (s.withHidden d l m b k) f).2 ((stepFaultsInExactlyThreeCases s f).1 h)

end

/-- Settles O60: a step that completes does so with the same next state but for the hidden pieces, and a fault is
the same fault. -/
theorem hiddenStateNeverDecidesAStep : Obligations.HiddenStateNeverDecidesAStep := by
  intro s d l m b k hk
  cases h : step s with
  | next t => exact step_withHidden_next d l m b hk h
  | fault f => exact step_withHidden_fault d l m b h
  | refused r => exact noStepIsRefused s r h

end Sys2Proof.Machine
end
